-- ==== Sys2Proof/Word.lean ====
section
/-! DEFINITION. The word types of the codec: the byte and the 32-bit integer field. -/

namespace Sys2Proof

/-- A byte, bits 7 (most significant) to 0 (R6). -/
abbrev Byte := BitVec 8

/-- A field of `VALW` = 32 bits: `req.val`, read as two's complement, and `rsp.val` (R5, R8, R12, R13). -/
abbrev Val := BitVec 32

/-- A field of 3 bits: `rsp.len` and `rsp.status` (R13, R61). -/
abbrev Bits3 := BitVec 3

end Sys2Proof
end

