-- ==== Sys2Proof/Syntax.lean ====
section
/-! DEFINITION. The request record, the two forms in which a transaction is presented, the
instructions (one constructor per row of spec/opcode_table.json) and the four bands. -/

namespace Sys2Proof

/-- The request record (R12, R59). Lengths and indices are natural numbers with the side condition
`< 2 ^ IDXW` of D3, which `Request.wellFormed` states. -/
structure Request where
  /-- `req.op`: which of the four operations (R60). -/
  op : BitVec 2
  /-- `req.val`: two's-complement operand of `ENC`. -/
  val : Val
  /-- `req.b[0]`: first byte of `LEN`, byte lane 0 of `DEC`. -/
  b0 : Byte
  /-- `req.b[1]`: byte lane 1 of `DEC`. -/
  b1 : Byte
  /-- `req.b[2]`: byte lane 2 of `DEC`. -/
  b2 : Byte
  /-- `req.b[3]`: byte lane 3 of `DEC`. -/
  b3 : Byte
  /-- `req.n`: the actual length of `DEC`'s sequence, not capped at 4 (D9). -/
  n : Nat
  /-- `req.start`: start index of `DECAT`. -/
  start : Nat
  /-- `req.buf_len`: length of BUF for `DECAT`. -/
  bufLen : Nat
  deriving DecidableEq, Repr

/-- A transaction as the host presents it to the codec. -/
inductive Input where
  /-- The request record (R12). -/
  | request (r : Request)
  /-- A byte sequence to be decoded as one packed value, in the list form that D9 calls equivalent to
  the byte lanes; the rows PV1 to PV4 of the opcode table are its formats (R53, R64).
  DESIGN CHOICE, safe: log 9. -/
  | sequence (s : List Byte)
  deriving DecidableEq, Repr

/-- One constructor per row of spec/opcode_table.json, with the operands the operation reads (R14). -/
inductive Instr where
  /-- `ENC` (R70): encode `req.val`. -/
  | enc (val : Val)
  /-- `LEN` (R80): the length announced by `req.b[0]`. -/
  | len (b0 : Byte)
  /-- `DEC` (R90): decode the sequence of actual length `n` whose bytes lie in the lanes. -/
  | dec (n : Nat) (b0 b1 b2 b3 : Byte)
  /-- `DECAT` (R100): decode the packed value at index `start` of BUF, whose length is `bufLen`. -/
  | decat (start bufLen : Nat)
  /-- Format PV1 (R53): one byte, 6 offset bits. -/
  | pv1 (o : BitVec 6)
  /-- Format PV2 (R53): two bytes, 14 offset bits. -/
  | pv2 (o : BitVec 14)
  /-- Format PV3 (R53): three bytes, 22 offset bits. -/
  | pv3 (o : BitVec 22)
  /-- Format PV4 (R53): four bytes, 30 offset bits. -/
  | pv4 (o : BitVec 30)
  deriving DecidableEq, Repr

/-- The four disjoint bands, numbered 0 to 3 (R9, R51). -/
inductive Band where
  | band0
  | band1
  | band2
  | band3
  deriving DecidableEq, Repr

end Sys2Proof
end

