-- ==== Sys2Proof/Decode.lean ====
section
/-! DEFINITION. From a presented transaction to an instruction, total and refusing by name; the
encoder, written from the same tables; and the words of the opcode table. -/

namespace Sys2Proof

/-- Why a presented byte sequence is no packed value (R58 (c)). -/
inductive DecodeError where
  /-- The empty sequence: there is no first byte. -/
  | emptySequence
  /-- The actual length differs from the one the first byte announces. -/
  | lengthMismatch
  deriving DecidableEq, Repr

/-- Bits 7..6 of a byte: the band tag of a first byte (R50). -/
def tagBits (b : Byte) : BitVec 2 := b.extractLsb' 6 2

/-- Bits 5..0 of a byte: the most significant offset bits of a first byte (R50). -/
def lowBits (b : Byte) : BitVec 6 := b.extractLsb' 0 6

/-- `expected_length(x)`: bits 7..6 plus 1 (R80). -/
def expectedLength (b : Byte) : Nat := (tagBits b).toNat + 1

/-- The first byte of a packed value: bits 7..6 the tag, bits 5..0 the most significant offset bits
(R53). -/
def firstByte (tag : BitVec 2) (high : BitVec 6) : Byte := tag ++ high

/-- The 14 offset bits of PV2, most significant first (R53). -/
def offset14 (high : BitVec 6) (s1 : Byte) : BitVec 14 := high ++ s1

/-- The 22 offset bits of PV3, most significant first (R53). -/
def offset22 (high : BitVec 6) (s1 s2 : Byte) : BitVec 22 := high ++ s1 ++ s2

/-- The 30 offset bits of PV4, most significant first (R53). -/
def offset30 (high : BitVec 6) (s1 s2 s3 : Byte) : BitVec 30 := high ++ s1 ++ s2 ++ s3

/-- The operation that `req.op` selects (R60), with the fields it reads (R14) and no other (D11). -/
def decodeRequest (r : Request) : Instr :=
  match r.op with
  | 0 => .enc r.val
  | 1 => .len r.b0
  | 2 => .dec r.n r.b0 r.b1 r.b2 r.b3
  | 3 => .decat r.start r.bufLen

/-- The format of a packed value (R53, R54): tag `00`, `01`, `10`, `11` with one, two, three, four
bytes, offset bits most significant first; every other sequence is refused by name (R57, R58 (c)). -/
def decodeSequence : List Byte → Except DecodeError Instr
  | [] => .error .emptySequence
  | [s0] =>
    if tagBits s0 = 0b00 then .ok (.pv1 (lowBits s0)) else .error .lengthMismatch
  | [s0, s1] =>
    if tagBits s0 = 0b01 then .ok (.pv2 (offset14 (lowBits s0) s1)) else .error .lengthMismatch
  | [s0, s1, s2] =>
    if tagBits s0 = 0b10 then .ok (.pv3 (offset22 (lowBits s0) s1 s2))
    else .error .lengthMismatch
  | [s0, s1, s2, s3] =>
    if tagBits s0 = 0b11 then .ok (.pv4 (offset30 (lowBits s0) s1 s2 s3))
    else .error .lengthMismatch
  | _ :: _ :: _ :: _ :: _ :: _ => .error .lengthMismatch

/-- The decoder: total on any presented transaction. A request always decodes (R60, R62). -/
def decode : Input → Except DecodeError Instr
  | .request r => .ok (decodeRequest r)
  | .sequence s => decodeSequence s

/-- The request with every field zero; an operation's encoder overwrites the fields it uses. The
zeros stand in fields the operation ignores (R14, D11). DESIGN CHOICE, safe: log 13. -/
def blankRequest : Request := ⟨0, 0, 0, 0, 0, 0, 0, 0, 0⟩

/-- The encoder: the request record of an operation (R60, R12), the bytes of a packed-value format
(R53). -/
def encode : Instr → Input
  | .enc val => .request { blankRequest with op := 0, val := val }
  | .len b0 => .request { blankRequest with op := 1, b0 := b0 }
  | .dec n b0 b1 b2 b3 => .request { blankRequest with op := 2, n, b0, b1, b2, b3 }
  | .decat start bufLen => .request { blankRequest with op := 3, start, bufLen }
  | .pv1 o => .sequence [firstByte 0b00 o]
  | .pv2 o => .sequence [firstByte 0b01 (o.extractLsb' 8 6), o.extractLsb' 0 8]
  | .pv3 o =>
    .sequence [firstByte 0b10 (o.extractLsb' 16 6), o.extractLsb' 8 8, o.extractLsb' 0 8]
  | .pv4 o =>
    .sequence [firstByte 0b11 (o.extractLsb' 24 6), o.extractLsb' 16 8, o.extractLsb' 8 8,
      o.extractLsb' 0 8]

/-- Byte `i` of a word of the opcode table: bits `8i+7 .. 8i`, the first byte least significant. -/
def tableByte (w i : Nat) : Byte := BitVec.ofNat 8 (w / 256 ^ i)

/-- What the host presents for a word of the opcode table. A row of an operation has a pattern over
the 2-bit `req.op`, so a word below 4 is a request with that `req.op` and zeros in its other fields;
any other word is a packed value, read as R57 says: one byte, then as many more as it announces.
The patterns of the operations and of PV1 overlap below 4 (they are patterns over different things),
and there the operation is meant. The table has no word narrower or wider than its packed value: of one
that is, the announced bytes beyond `nbits` are zero and the bytes above the announced length are
dropped. DESIGN CHOICE, safe: log 11. -/
def inputOfTableWord (nbits w : Nat) : Input :=
  let w := w % 2 ^ nbits
  if w < 4 then .request { blankRequest with op := BitVec.ofNat 2 w }
  else .sequence (([0, 1, 2, 3].map (tableByte w)).take (expectedLength (tableByte w 0)))

/-- The instruction the decoder reads from a word of the opcode table. -/
def decodeTableWord (nbits w : Nat) : Option Instr :=
  match decode (inputOfTableWord nbits w) with
  | .ok i => some i
  | .error _ => none

end Sys2Proof
end

