-- ==== Sys2Proof/Machine/State.lean ====
section
/-! DEFINITION. The machine's state as plain data: the transactions presented and not yet answered,
the buffer BUF and the answers delivered; the error kinds, the response, and the reasons to stop. -/

namespace Sys2Proof.Machine

open Sys2Proof

/-- The buffer space BUF (R30): the bytes the host has provided, as (index, byte) pairs with strictly
rising indices. What an index that is not listed reads as is `unlistedByte`. -/
abbrev Memory := List Host.Cell

/-- The five error kinds (R130). -/
inductive ErrorKind where
  /-- `ERR_NEGATIVE`, raised by `ENC` (R71). -/
  | negative
  /-- `ERR_TOO_LARGE`, raised by `ENC` (R72). -/
  | tooLarge
  /-- `ERR_LENGTH_MISMATCH`, raised by `DEC` (R92). -/
  | lengthMismatch
  /-- `ERR_BUFFER_TOO_SHORT`, raised by `DECAT` (R101, R102). -/
  | bufferTooShort
  /-- `ERR_EMPTY_INPUT`, raised by `DEC` (R91). -/
  | emptyInput
  deriving DecidableEq, Repr

/-- The response: a tagged union whose alternatives hold exactly the payload of R13. Lanes and fields
that are no part of the payload do not exist (R13, U3). DESIGN CHOICE, safe: log 15. -/
inductive Response where
  /-- `OK` of `ENC`: `rsp.len` and the bytes `rsp.b[0 .. rsp.len - 1]`. -/
  | encoded (len : Bits3) (b : List Byte)
  /-- `OK` of `LEN`: `rsp.len`. -/
  | length (len : Bits3)
  /-- `OK` of `DEC` and `DECAT`: `rsp.val`. -/
  | value (val : Val)
  /-- An error: its kind and nothing else (R131, R132). -/
  | error (kind : ErrorKind)
  deriving DecidableEq, Repr

/-- What the model has to say of one performed transaction. -/
inductive Answer where
  /-- The response of R13. -/
  | response (r : Response)
  /-- The host broke a duty of R156, which leaves this transaction, and no other, without meaning: any
  response, or none, may stand here, and the model says nothing about it (R38 (c)).
  DESIGN CHOICE, safe: log 5. -/
  | unspecified
  deriving DecidableEq, Repr

/-- Why a read of BUF gives no byte. Neither is an exception of the spec, whose errors are responses
(R146), and no instruction ends in one. -/
inductive Fault where
  /-- Raised by `bufRead` at an index below `req.buf_len` where the host has provided no byte. Safe: no
  instruction makes such a read, because `DECAT` first leaves unspecified a transaction whose
  `req.buf_len` is larger than the readable buffer (R156). Log 6. -/
  | bufByteAbsent (index : Nat)
  /-- Raised by `bufRead` at an index that is not below `req.buf_len`, where `BufRead` is not defined
  (R31). Safe: no instruction makes such a read. Log 6. -/
  | bufReadOutside (index : Nat)
  deriving DecidableEq, Repr

/-- Why the model gives an instruction no meaning. -/
inductive Refusal where
  /-- Raised by no arm of `exec`: every instruction has its meaning. Safe. -/
  | notModelled (mnemonic : String)
  deriving DecidableEq, Repr

/-- A transaction that the host has issued. -/
structure Issued where
  /-- The transaction as the host presents it (R12). -/
  input : Input
  /-- At its issue, BUF held a byte at every index below the `req.buf_len` of a `DECAT`, as the host owes
  it before it issues the request (R151, R156). The MODEL'S own record of that duty: log 5. -/
  dutyKept : Bool
  deriving DecidableEq, Repr

/-- The state of the model. The codec itself keeps none (R10, R23): these are the transactions at its
request port, the host's buffer, and the answers at its response port. DESIGN CHOICE, safe: log 1. -/
structure State where
  /-- Transactions the host has issued and the codec has not answered, oldest first (R12, R24). -/
  pending : List Issued
  /-- The buffer BUF, owned and written by the host (R30). -/
  buf : Memory
  /-- Answers delivered, oldest first, one for each transaction performed (R13, R158). That the k-th is
  that of the k-th transaction issued is DESIGN CHOICE: log 2. -/
  answers : List Answer
  deriving DecidableEq, Repr

/-- After reset: no transaction issued, no byte of BUF provided, no answer delivered. The spec gives
no reset value because the codec has no state (R23, R150). DESIGN CHOICE, unsafe: log 4. -/
def State.reset : State := ⟨[], [], []⟩

end Sys2Proof.Machine
end

