-- ==== Sys2Proof/Machine/Operands.lean ====
section
/-! DEFINITION. The band table and the two directions of operand assembly: a value from the bytes of
a packed value, and the bytes of a packed value from a value. All arithmetic is on `Nat`, exact and
without wrap, as the pseudocode's is (R7, R118). -/

namespace Sys2Proof.Machine

open Sys2Proof

/-- The band's number, 0 to 3 (R51). -/
def bandIndex : Band → Nat
  | .band0 => 0
  | .band1 => 1
  | .band2 => 2
  | .band3 => 3

/-- `b + 1`: the length in bytes of a packed value of the band (R51). -/
def bandLength (b : Band) : Nat := bandIndex b + 1

/-- `TAG[b]`: the band's tag as a mask on byte 0 (R5, R51). -/
def bandTag : Band → Byte
  | .band0 => 0x00
  | .band1 => 0x40
  | .band2 => 0x80
  | .band3 => 0xC0

/-- `OBITS[b]`: the number of offset bits (R5, R51). -/
def bandOffsetBits (b : Band) : Nat := 6 + 8 * bandIndex b

/-- `BASE[b]`: the least value of the band (R5, R51, R52; the corrected constants of C1 to C3). -/
def bandBase : Band → Nat
  | .band0 => 0x0
  | .band1 => 0x40
  | .band2 => 0x4040
  | .band3 => 0x404040

/-- `MAXLEN`: the greatest length of a packed value in bytes (R5). -/
def maxLength : Nat := 4

/-- `LIMIT`: the exclusive upper bound of band 3 (R5, R52, C3). -/
def limit : Nat := 0x40404040

/-- `MAXV`: the greatest encodable value, `LIMIT - 1` (R5, R52, C3). -/
def maxValue : Nat := 0x4040403F

/-- The band announced by a first byte: its bits 7..6 (R50). -/
def bandOfByte (b : Byte) : Band :=
  match tagBits b with
  | 0 => .band0
  | 1 => .band1
  | 2 => .band2
  | 3 => .band3

/-- The band of a value, by the thresholds `BASE[1]`, `BASE[2]`, `BASE[3]` (R70, R73). -/
def bandOfValue (v : Nat) : Band :=
  if v < bandBase .band1 then .band0
  else if v < bandBase .band2 then .band1
  else if v < bandBase .band3 then .band2
  else .band3

/-- The offset carried by the bytes of a packed value: the low 6 bits of the first byte, then every
following byte, most significant first (R54, R90). -/
def offsetOf : List Byte → Nat
  | [] => 0
  | s0 :: rest => rest.foldl (fun o x => (o <<< 8) ||| x.toNat) (lowBits s0).toNat

/-- The value of an offset within a band, as `rsp.val`: `o + BASE[b]` (R55). -/
def bandValue (b : Band) (o : Nat) : Val := BitVec.ofNat 32 (o + bandBase b)

/-- The value of the packed value whose first byte is `s0` and whose further bytes are `rest`
(R54, R55, R90). -/
def packedValue (s0 : Byte) (rest : List Byte) : Val :=
  bandValue (bandOfByte s0) (offsetOf (s0 :: rest))

/-- The bytes of the value `v`, most significant first, tag in the first (R56, R70). -/
def packValue (v : Nat) : List Byte :=
  let b := bandOfValue v
  let o := v - bandBase b
  (bandTag b ||| BitVec.ofNat 8 (o >>> (8 * (bandLength b - 1)))) ::
    (List.range (bandIndex b)).map
      (fun k => BitVec.ofNat 8 ((o >>> (8 * (bandLength b - 1 - (k + 1)))) &&& 0xFF))

/-- A length as the 3-bit field `rsp.len` (R13). -/
def lengthField (k : Nat) : Bits3 := BitVec.ofNat 3 k

end Sys2Proof.Machine
end

