-- ==== Sys2Proof/Machine/Ops.lean ====
section
/-! DEFINITION. The named operations: reading and writing BUF, delivering a response, raising an
error (the codec's only exception), leaving a transaction without meaning, and the host's acts. -/

namespace Sys2Proof.Machine

open Sys2Proof

/-- What an index of BUF reads as when the host has provided no byte there: nothing.
DESIGN CHOICE, safe: log 5. -/
def unlistedByte : Option Byte := none

/-- The byte of BUF at an index, if the host has provided one. -/
def Memory.read : Memory → Nat → Option Byte
  | [], _ => unlistedByte
  | (k, x) :: m, a => if a = k then some x else Memory.read m a

/-- BUF with one byte written (R30: by the host; R36: the codec never does). Keeps the canonical
form. -/
def Memory.write : Memory → Nat → Byte → Memory
  | [], a, x => [(a, x)]
  | (k, y) :: m, a, x =>
    if a < k then (a, x) :: (k, y) :: m
    else if a = k then (a, x) :: m
    else (k, y) :: Memory.write m a x

/-- BUF with consecutive bytes written from index `a` on. -/
def Memory.writeBytes (m : Memory) (a : Nat) : List Byte → Memory
  | [] => m
  | x :: xs => Memory.writeBytes (m.write a x) (a + 1) xs

/-- BUF holds a byte at every index below `n`: a `req.buf_len` of `n` is no larger than the readable
buffer (R30, R156). -/
def Memory.readableBelow (m : Memory) : Nat → Bool
  | 0 => true
  | n + 1 => (m.read n).isSome && m.readableBelow n

/-- The canonical form: indices strictly rising. No listed byte can equal an unlisted one, which has
no value. -/
def Memory.wf : Memory → Bool
  | [] => true
  | [_] => true
  | (k, _) :: (l, y) :: m => decide (k < l) && Memory.wf ((l, y) :: m)

/-- The byte of BUF at an index, if the host has provided one. -/
def State.bufByte (s : State) (a : Nat) : Option Byte := s.buf.read a

/-- `BufRead(a)` with the buffer length of the request at hand: defined only for `a < req.buf_len`
(R31). -/
def bufRead (s : State) (bufLen a : Nat) : Except Fault Byte :=
  if a < bufLen then
    match s.bufByte a with
    | some x => .ok x
    | none => .error (.bufByteAbsent a)
  else .error (.bufReadOutside a)

/-- `MemRead(a, n)`: the bytes at `a`, `a + 1`, ..., `a + n - 1` (R7), one byte at a time (R34). -/
def bufReadBytes (s : State) (bufLen a : Nat) : Nat → Except Fault (List Byte)
  | 0 => .ok []
  | n + 1 =>
    match bufRead s bufLen a with
    | .error f => .error f
    | .ok x =>
      match bufReadBytes s bufLen (a + 1) n with
      | .error f => .error f
      | .ok xs => .ok (x :: xs)

/-- One transaction has been performed, with this answer (R158). Nothing else changes (R10). -/
def State.answer (x : Answer) (s : State) : State := { s with answers := s.answers ++ [x] }

/-- End the transaction with a response: `return <payload>` of R7. -/
def State.respond (r : Response) (s : State) : State := s.answer (.response r)

/-- Leave the transaction without meaning, as a broken duty of the host does (R156, R38 (c)). The
transactions behind it are answered as ever (R24, R158). DESIGN CHOICE, safe: log 5. -/
def State.leaveUnspecified (s : State) : State := s.answer .unspecified

/-- Taking an exception: `raise <Error>` of R7. The transaction ends with an error response that holds
the kind and no payload. Nothing is saved, no mode, mask or control changes (R131, R132, R140), so
there is no return from it (R141). -/
def State.raise (k : ErrorKind) (s : State) : State := s.respond (.error k)

/-- The host's duty about `req.buf_len` is kept over this BUF (R151, R156): a `DECAT` gives one that is
no larger than the readable buffer. The other instructions read no BUF (R14). -/
def keepsDuty (m : Memory) : Instr → Bool
  | .enc _ => true
  | .len _ => true
  | .dec _ _ _ _ _ => true
  | .decat _ bufLen => m.readableBelow bufLen
  | .pv1 _ => true
  | .pv2 _ => true
  | .pv3 _ => true
  | .pv4 _ => true

/-- The same for a transaction as the host presents it; a sequence that is no packed value reads no
BUF. -/
def inputKeepsDuty (m : Memory) (x : Input) : Bool :=
  match decode x with
  | .ok i => keepsDuty m i
  | .error _ => true

/-- A transaction as the host issues it in this state: whether the duty about `req.buf_len` is kept is
settled now, "before the request is issued" (R151). -/
def State.issued (x : Input) (s : State) : Issued := ⟨x, inputKeepsDuty s.buf x⟩

/-- The host issues a transaction (R11, R156). -/
def State.issue (x : Input) (s : State) : State := { s with pending := s.pending ++ [s.issued x] }

/-- The bytes of BUF that the host owes to an instruction unchanged, from its issue to its response:
`BUF[req.start .. min(req.start + 4, req.buf_len))` of a `DECAT` (R38 (a), R153, R156). The other
instructions read no BUF (R14). -/
def inWindow (a : Nat) : Instr → Bool
  | .enc _ => false
  | .len _ => false
  | .dec _ _ _ _ _ => false
  | .decat start bufLen => decide (start ≤ a ∧ a < min (start + 4) bufLen)
  | .pv1 _ => false
  | .pv2 _ => false
  | .pv3 _ => false
  | .pv4 _ => false

/-- The same for a transaction as the host presents it; a sequence that is no packed value has none. -/
def inputHolds (a : Nat) (x : Input) : Bool :=
  match decode x with
  | .ok i => inWindow a i
  | .error _ => false

/-- The index lies in the window of a transaction issued and not yet answered. -/
def State.held (a : Nat) (s : State) : Bool := s.pending.any (fun x => inputHolds a x.input)

/-- The host writes a byte of BUF (R30, R156), at any time. `none`: the write would change a byte in
the window of a pending `DECAT`. A host that makes it leaves that transaction without meaning, and the
model has no such move (R38 (c), R153; 93_implementation_defined.md U5). Log 14. -/
def State.hostWrite (a : Nat) (x : Byte) (s : State) : Option State :=
  if s.held a = true ∧ s.bufByte a ≠ some x then none else some { s with buf := s.buf.write a x }

/-- The host writes consecutive bytes of BUF from index `a` on, one after another. -/
def State.hostWriteBytes (a : Nat) : List Byte → State → Option State
  | [], s => some s
  | x :: xs, s =>
    match s.hostWrite a x with
    | none => none
    | some t => State.hostWriteBytes (a + 1) xs t

end Sys2Proof.Machine
end

