-- ==== Sys2Proof/Machine/Decoder.lean ====
section
/-! DEFINITION. `DEC`, the whole-sequence decoder with length validation (spec/42_decoder.md), and
the values of the four packed-value formats (spec/30_encoding.md). -/

namespace Sys2Proof.Machine

open Sys2Proof

/-- `DEC` (R90): empty input (R91), length validation (R92), else the value of the `n` bytes in the
lanes (R54, R55). The lanes at and above `n` are not read (R95). -/
def execDec (n : Nat) (b0 b1 b2 b3 : Byte) (s : State) : Host.Outcome State Fault Refusal :=
  if n = 0 then .next (s.raise .emptyInput)
  else if expectedLength b0 ≠ n then .next (s.raise .lengthMismatch)
  else .next (s.respond (.value (packedValue b0 ([b1, b2, b3].take (n - 1)))))

/-- PV1: the value of a packed value of band 0 (R55), delivered as `DEC` delivers it.
DEDUCED, safe: log 10. -/
def execPv1 (o : BitVec 6) (s : State) : Host.Outcome State Fault Refusal :=
  .next (s.respond (.value (bandValue .band0 o.toNat)))

/-- PV2: the value of a packed value of band 1 (R55), delivered as `DEC` delivers it.
DEDUCED, safe: log 10. -/
def execPv2 (o : BitVec 14) (s : State) : Host.Outcome State Fault Refusal :=
  .next (s.respond (.value (bandValue .band1 o.toNat)))

/-- PV3: the value of a packed value of band 2 (R55), delivered as `DEC` delivers it.
DEDUCED, safe: log 10. -/
def execPv3 (o : BitVec 22) (s : State) : Host.Outcome State Fault Refusal :=
  .next (s.respond (.value (bandValue .band2 o.toNat)))

/-- PV4: the value of a packed value of band 3 (R55), delivered as `DEC` delivers it.
DEDUCED, safe: log 10. -/
def execPv4 (o : BitVec 30) (s : State) : Host.Outcome State Fault Refusal :=
  .next (s.respond (.value (bandValue .band3 o.toNat)))

end Sys2Proof.Machine
end

