-- ==== Sys2Proof/Machine/DecoderAt.lean ====
section
/-! DEFINITION. `DECAT`, the decoder at an offset inside BUF (spec/43_decoder_at_offset.md). -/

namespace Sys2Proof.Machine

open Sys2Proof

/-- `DECAT`. A `req.buf_len` larger than the readable buffer breaks the host's duty of R156 and leaves
the transaction without meaning, whether or not an absent byte would be needed; the transactions
behind it are answered as ever (R24, R158). DEDUCED, safe: log 5. Here the transaction is issued and
performed in one state; one issued earlier comes here only with the duty kept at its issue (`step`).
Over a BUF of `req.buf_len` bytes (R30) it is R100: start at or past the end (R101), buffer exhausted
(R102, exact sum: R103), else the value of the packed value at `start`. The delegated length check of
R105 is left out, as R105 allows. Each byte of BUF is read once (U10). The reads cannot fail (log 6). -/
def execDecat (start bufLen : Nat) (s : State) : Host.Outcome State Fault Refusal :=
  if s.buf.readableBelow bufLen = false then .next s.leaveUnspecified
  else if bufLen ≤ start then .next (s.raise .bufferTooShort)
  else
    match bufRead s bufLen start with
    | .error f => .fault f
    | .ok first =>
      if bufLen < start + expectedLength first then .next (s.raise .bufferTooShort)
      else
        match bufReadBytes s bufLen (start + 1) (expectedLength first - 1) with
        | .error f => .fault f
        | .ok rest => .next (s.respond (.value (packedValue first rest)))

end Sys2Proof.Machine
end

