-- ==== Sys2Proof/Machine/Encoder.lean ====
section
/-! DEFINITION. `ENC`, the encoder (spec/40_encoder.md). -/

namespace Sys2Proof.Machine

open Sys2Proof

/-- `ENC` (R70): negative input (R71), too large (R72), else the bytes of the value (R56) with their
number (R74). -/
def execEnc (val : Val) (s : State) : Host.Outcome State Fault Refusal :=
  if val.toInt < 0 then .next (s.raise .negative)
  else if val.toInt > maxValue then .next (s.raise .tooLarge)
  else
    let v := val.toInt.toNat
    .next (s.respond (.encoded (lengthField (bandLength (bandOfValue v))) (packValue v)))

end Sys2Proof.Machine
end

