-- ==== Sys2Proof/Machine/Inspector.lean ====
section
/-! DEFINITION. `LEN`, the expected-length inspector (spec/41_length_inspector.md). -/

namespace Sys2Proof.Machine

open Sys2Proof

/-- `LEN` (R80): bits 7..6 of the byte plus 1; never an error. -/
def execLen (b0 : Byte) (s : State) : Host.Outcome State Fault Refusal :=
  .next (s.respond (.length (lengthField (expectedLength b0))))

end Sys2Proof.Machine
end

