-- ==== Sys2Proof/Machine/Dispatch.lean ====
section
/-! DEFINITION. The dispatch: one arm per instruction, each one call of its meaning. -/

namespace Sys2Proof.Machine

open Sys2Proof

def exec (i : Instr) (s : State) : Host.Outcome State Fault Refusal :=
  match i with
  | .enc val => Sys2Proof.Machine.execEnc val s
  | .len b0 => Sys2Proof.Machine.execLen b0 s
  | .dec n b0 b1 b2 b3 => Sys2Proof.Machine.execDec n b0 b1 b2 b3 s
  | .decat start bufLen => Sys2Proof.Machine.execDecat start bufLen s
  | .pv1 o => Sys2Proof.Machine.execPv1 o s
  | .pv2 o => Sys2Proof.Machine.execPv2 o s
  | .pv3 o => Sys2Proof.Machine.execPv3 o s
  | .pv4 o => Sys2Proof.Machine.execPv4 o s

end Sys2Proof.Machine
end

