-- ==== Sys2Proof/Machine/Fetch.lean ====
section
/-! DEFINITION. Taking the next transaction from the request port, and the answer to a byte sequence
that is no packed value. -/

namespace Sys2Proof.Machine

open Sys2Proof

/-- The error response to a presented sequence that is no packed value: the one `DEC` gives it
(R58 (c), R91, R92). -/
def rejectionKind : DecodeError → ErrorKind
  | .emptySequence => .emptyInput
  | .lengthMismatch => .lengthMismatch

/-- Deliver the answer to a presented sequence that is no packed value. -/
def rejectSequence (e : DecodeError) (s : State) : State := s.raise (rejectionKind e)

/-- Issue a transaction where the next step takes it from: at the head of the pending ones. -/
def presentNext (x : Input) (s : State) : State := { s with pending := s.issued x :: s.pending }

end Sys2Proof.Machine
end

