-- ==== Sys2Proof/Machine/Step.lean ====
section
/-! DEFINITION. One step of the machine is one transaction of the codec, from request to response
(R11): take the oldest pending transaction, decode it, perform it. -/

namespace Sys2Proof.Machine

open Sys2Proof

/-- One transaction: the oldest pending one (log 2). One issued with the host's duty about `req.buf_len`
broken has no meaning, whatever BUF holds by now (R151, R156; log 5). With none pending nothing happens
(log 3). -/
def step (s : State) : Host.Outcome State Fault Refusal :=
  match s.pending with
  | [] => .next s
  | x :: rest =>
    if x.dutyKept = false then .next (State.leaveUnspecified { s with pending := rest })
    else
      match decode x.input with
      | .ok i => exec i { s with pending := rest }
      | .error e => .next (rejectSequence e { s with pending := rest })

/-- The host presents the transaction of a word of the opcode table as the next one (log 12). -/
def State.withFetchWord (s : State) (nbits w : Nat) : State :=
  presentNext (inputOfTableWord nbits w) s

end Sys2Proof.Machine
end

