-- ==== Sys2Proof/Machine/Flags.lean ====
section
/-! DEFINITION. The codec has no flags (R17). What tells a consumer the outcome is `rsp.status`, the
tag of the response, computed here from the response itself. -/

namespace Sys2Proof.Machine

open Sys2Proof

/-- The status code of an error kind (R61, R130). -/
def errorCode : ErrorKind → Bits3
  | .negative => 1
  | .tooLarge => 2
  | .lengthMismatch => 3
  | .bufferTooShort => 4
  | .emptyInput => 5

/-- `rsp.status` (R61): 0 is `OK`; 6 and 7 are never produced. -/
def Response.status : Response → Bits3
  | .encoded _ _ => 0
  | .length _ => 0
  | .value _ => 0
  | .error k => errorCode k

end Sys2Proof.Machine
end

