-- ==== Sys2Proof/Config.lean ====
section
/-! DEFINITION. What an implementation of the codec fixes and the spec leaves open: the width `IDXW`. -/

namespace Sys2Proof

/-- By how much `IDXW` exceeds its least value 3. No body: nothing in Lean can prove what it is
(R5, D3, U7: an open parameter of the model). DESIGN CHOICE, safe: log 7. -/
opaque Config.idxwExcess : Nat

/-- `IDXW`, the width in bits of every length and index field, at least 3 (R5, D3).
DESIGN CHOICE, safe: log 7. -/
def Config.IDXW : Nat := 3 + Config.idxwExcess

end Sys2Proof
end

