-- ==== Sys2Proof/WellFormed.lean ====
section
/-! DEFINITION. Which instructions and inputs fit the field widths of the request record (R12, R5). -/

namespace Sys2Proof

/-- A length or index fits its unsigned field of `IDXW` bits (R5, R12). -/
def fitsIndex (k : Nat) : Prop := k < 2 ^ Config.IDXW

/-- The operands fit their fields (R12). Only lengths and indices need a check: every other operand
has its width in its type. -/
def Instr.wellFormed : Instr → Prop
  | .enc _ => True
  | .len _ => True
  | .dec n _ _ _ _ => fitsIndex n
  | .decat start bufLen => fitsIndex start ∧ fitsIndex bufLen
  | .pv1 _ => True
  | .pv2 _ => True
  | .pv3 _ => True
  | .pv4 _ => True

/-- The request's fields are within their widths (R12, R25). -/
def Request.wellFormed (r : Request) : Prop :=
  fitsIndex r.n ∧ fitsIndex r.start ∧ fitsIndex r.bufLen

/-- A presented transaction is within the widths. A sequence's length must fit `req.n`, the field
that would carry it (R12, D9). -/
def Input.wellFormed : Input → Prop
  | .request r => r.wellFormed
  | .sequence s => fitsIndex s.length

end Sys2Proof
end

