-- ==== Sys2Proof/Safety.lean ====
section
/-! DEFINITION. The terms the claims use: well-formed packed values, legal responses, the host's duty
about BUF, and the invariant of the machine. -/

namespace Sys2Proof.Machine

open Sys2Proof

/-- A well-formed packed value: at least one byte, and as many as the first byte announces (R57). -/
def IsPacked (p : List Byte) : Prop :=
  ∃ first rest, p = first :: rest ∧ p.length = expectedLength first

/-- The ranges of R13: `ENC` answers a well-formed packed value with its length, `LEN` a length 1 to
4, `DEC` and `DECAT` a value up to `MAXV`; an error has no payload. -/
def Response.legal : Response → Prop
  | .encoded len b => IsPacked b ∧ len.toNat = b.length
  | .length len => 1 ≤ len.toNat ∧ len.toNat ≤ maxLength
  | .value val => val.toNat ≤ maxValue
  | .error _ => True

/-- The host's duty about `req.buf_len` (R156): BUF is a sequence of at least `bufLen` bytes (R30), so
that the buffer length it gave is no larger than the readable buffer. -/
def BufReadable (bufLen : Nat) (s : State) : Prop := ∀ a, a < bufLen → ∃ x, s.bufByte a = some x

/-- The bytes of the sequence `p` are the leading ones of the four lanes of `DEC` (R12). -/
def InLanes (p : List Byte) (b0 b1 b2 b3 : Byte) : Prop :=
  ∀ (k : Nat) (x : Byte), p[k]? = some x → [b0, b1, b2, b3][k]? = some x

/-- The bytes of the sequence `p` stand in BUF from index `start` on. -/
def InBuf (p : List Byte) (start : Nat) (s : State) : Prop :=
  ∀ (k : Nat) (x : Byte), p[k]? = some x → s.bufByte (start + k) = some x

/-- What the record of the duty about `req.buf_len` says (R151, R156): a pending `DECAT` recorded with the
duty kept has a BUF of at least `req.buf_len` bytes. The host's writes take no byte away. -/
def DutiesRecorded (s : State) : Prop :=
  ∀ x ∈ s.pending, x.dutyKept = true →
    ∀ start bufLen, decode x.input = .ok (.decat start bufLen) → BufReadable bufLen s

/-- What every step keeps: BUF in canonical form and inside the index space (R37), every pending
transaction within its field widths (R12) and its duty recorded (R156), every response within the ranges of R13. Nothing is said of
an answer left unspecified. -/
structure Invariant (s : State) : Prop where
  bufCanonical : s.buf.wf = true
  bufIndices : ∀ c ∈ s.buf, c.1 + 1 < 2 ^ Config.IDXW
  pendingFit : ∀ x ∈ s.pending, x.input.wellFormed
  dutiesRecorded : DutiesRecorded s
  responsesLegal : ∀ r, .response r ∈ s.answers → r.legal

end Sys2Proof.Machine
end

