-- ==== Sys2Proof/Certificates/Slice0/Obligations.lean ====
section
/-! DEFINITION. The statements for the provers. A conclusion
`exec i s = .next { s with answers := s.answers ++ [.response r] }` says that the instruction completes
with the response `r`, and that the pending transactions and every byte of BUF are as before.
`BufReadable bufLen s` says that BUF is a sequence of `bufLen` bytes (R30), as the host owes it to a
`DECAT` with that buffer length (R156). -/

open Sys2Proof Sys2Proof.Machine

/-! ### Encodings -/

/-- R53, R60: decoding the encoding of an instruction gives the instruction, for every operand. -/
def Obligations.DecodeOfEncodeIsTheInstruction : Prop :=
  ∀ i : Instr, decode (encode i) = .ok i

/-- R53, R58 (d): a sequence that decodes is the encoding of what it decodes to (no second spelling). -/
def Obligations.EncodeOfDecodedSequenceIsTheSequence : Prop :=
  ∀ (p : List Byte) (i : Instr), decode (.sequence p) = .ok i → encode i = .sequence p

/-- R57, R58: a sequence is accepted exactly when it is well-formed; the others are refused by name. -/
def Obligations.SequenceDecodesExactlyWhenWellFormed : Prop :=
  ∀ p : List Byte,
    ((∃ i, decode (.sequence p) = .ok i) ↔
      ∃ (first : Byte) (rest : List Byte), p = first :: rest ∧ p.length = first.toNat / 64 + 1) ∧
    (decode (.sequence p) = .error .emptySequence ↔ p = []) ∧
    (decode (.sequence p) = .error .lengthMismatch ↔
      ∃ (first : Byte) (rest : List Byte), p = first :: rest ∧ p.length ≠ first.toNat / 64 + 1)

/-- R60: the four operation codes; every request decodes. -/
def Obligations.RequestDecodesByItsOperationCode : Prop :=
  ∀ r : Request,
    (r.op = 0b00#2 → decode (.request r) = .ok (.enc r.val)) ∧
    (r.op = 0b01#2 → decode (.request r) = .ok (.len r.b0)) ∧
    (r.op = 0b10#2 → decode (.request r) = .ok (.dec r.n r.b0 r.b1 r.b2 r.b3)) ∧
    (r.op = 0b11#2 → decode (.request r) = .ok (.decat r.start r.bufLen)) ∧
    ∃ i, decode (.request r) = .ok i

/-- A few words written out from R53 and R60, given to the decoder; words of the opcode table too. -/
def Obligations.WrittenOutWordsDecode : Prop :=
  decode (.sequence [0b00111111]) = .ok (.pv1 63) ∧
  decode (.sequence [0b01000000, 0b11101100]) = .ok (.pv2 236) ∧
  decode (.sequence [0b10000000, 0b11010001, 0b00110000]) = .ok (.pv3 0xD130) ∧
  decode (.sequence [0b11010010, 0x34, 0x56, 0x78]) = .ok (.pv4 0x12345678) ∧
  decode (.request ⟨0b00, 300, 0, 0, 0, 0, 0, 0, 0⟩) = .ok (.enc 300) ∧
  decode (.request ⟨0b01, 0, 0x9A, 0, 0, 0, 0, 0, 0⟩) = .ok (.len 0x9A) ∧
  decode (.request ⟨0b10, 0, 0x40, 0xEC, 0, 0, 2, 0, 0⟩) = .ok (.dec 2 0x40 0xEC 0 0) ∧
  decode (.request ⟨0b11, 0, 0, 0, 0, 0, 0, 1, 8⟩) = .ok (.decat 1 8) ∧
  decodeTableWord 8 0b11 = some (.decat 0 0) ∧
  decodeTableWord 8 0b10000000 = some (.pv3 0)

/-- R115: no well-formed packed value is a proper prefix of another; a concatenation splits in one
way only; and it is split from the left by `LEN` of the byte at the current index. -/
def Obligations.ConcatenatedPackedValuesSplitInOneWay : Prop :=
  (∀ p q : List Byte, IsPacked p → IsPacked q → p <+: q → p = q) ∧
  (∀ ps qs : List (List Byte), (∀ p ∈ ps, IsPacked p) → (∀ q ∈ qs, IsPacked q) →
    ps.flatten = qs.flatten → ps = qs) ∧
  (∀ (p rest : List Byte) (s : State), IsPacked p →
    ∃ (first : Byte) (n : Bits3), (p ++ rest)[0]? = some first ∧
      exec (.len first) s = .next { s with answers := s.answers ++ [.response (.length n)] } ∧
      (p ++ rest).take n.toNat = p ∧ (p ++ rest).drop n.toNat = rest)

/-! ### The band table -/

/-- R52: the constants, from their derivation and in closed form. -/
def Obligations.BandBasesAreTheSumsOfTheBandsBelow : Prop :=
  bandBase .band0 = 0 ∧ bandBase .band1 = 0x40 ∧
  bandBase .band2 = bandBase .band1 + 0x4000 ∧ bandBase .band3 = bandBase .band2 + 0x400000 ∧
  limit = bandBase .band3 + 0x40000000 ∧ limit = 1077952576 ∧ maxValue = limit - 1 ∧
  (∀ b : Band, bandOffsetBits b = 6 + 8 * bandIndex b ∧
    bandBase b = ((List.range (bandIndex b)).map (fun k => 2 ^ (6 + 8 * k))).sum) ∧
  limit = 64 + 16384 + 4194304 + 1073741824

/-- R73: the band of a value is the unique one whose range contains it; equally, the number of
thresholds that the value reaches. -/
def Obligations.BandOfValueIsTheUniqueBand : Prop :=
  ∀ v : Nat, v ≤ maxValue →
    (∀ b : Band, (bandBase b ≤ v ∧ v ≤ bandBase b + 2 ^ bandOffsetBits b - 1) ↔
      b = bandOfValue v) ∧
    bandIndex (bandOfValue v) =
      (if 0x40 ≤ v then 1 else 0) + (if 0x4040 ≤ v then 1 else 0) +
        (if 0x404040 ≤ v then 1 else 0)

/-! ### ENC -/

/-- R70: every case of the pseudocode, with the bytes of each band written out. -/
def Obligations.EncAnswersEveryInput : Prop :=
  ∀ (val : Val) (s : State),
    (val.toInt < 0 →
      exec (.enc val) s =
        .next { s with answers := s.answers ++ [.response (.error .negative)] }) ∧
    (0x4040403F < val.toInt →
      exec (.enc val) s =
        .next { s with answers := s.answers ++ [.response (.error .tooLarge)] }) ∧
    (∀ v : Nat, val.toInt = (v : Int) → v < 0x40 →
      exec (.enc val) s =
        .next { s with answers := s.answers ++ [.response (.encoded 1 [BitVec.ofNat 8 v])] }) ∧
    (∀ o : Nat, val.toInt = (o + 0x40 : Int) → o < 2 ^ 14 →
      exec (.enc val) s =
        .next { s with answers := s.answers ++
          [.response (.encoded 2
            [BitVec.ofNat 8 (0x40 + o / 2 ^ 8), BitVec.ofNat 8 (o % 2 ^ 8)])] }) ∧
    (∀ o : Nat, val.toInt = (o + 0x4040 : Int) → o < 2 ^ 22 →
      exec (.enc val) s =
        .next { s with answers := s.answers ++
          [.response (.encoded 3
            [BitVec.ofNat 8 (0x80 + o / 2 ^ 16), BitVec.ofNat 8 (o / 2 ^ 8 % 2 ^ 8),
            BitVec.ofNat 8 (o % 2 ^ 8)])] }) ∧
    (∀ o : Nat, val.toInt = (o + 0x404040 : Int) → o < 2 ^ 30 →
      exec (.enc val) s =
        .next { s with answers := s.answers ++
          [.response (.encoded 4
            [BitVec.ofNat 8 (0xC0 + o / 2 ^ 24), BitVec.ofNat 8 (o / 2 ^ 16 % 2 ^ 8),
            BitVec.ofNat 8 (o / 2 ^ 8 % 2 ^ 8), BitVec.ofNat 8 (o % 2 ^ 8)])] })

/-- R71: `ENC` fails with `ERR_NEGATIVE` exactly when bit 31 is 1, and such an input is never too
large. -/
def Obligations.EncFailsNegativeExactlyWhenBit31IsSet : Prop :=
  ∀ (val : Val) (s : State),
    (val.toInt < 0 ↔ val[31] = true) ∧
    (exec (.enc val) s = .next { s with answers := s.answers ++ [.response (.error .negative)] } ↔
      val.toInt < 0) ∧
    (val.toInt < 0 →
      ¬ 0x4040403F < val.toInt ∧
      exec (.enc val) s ≠ .next { s with answers := s.answers ++ [.response (.error .tooLarge)] })

/-- R72: `ENC` fails with `ERR_TOO_LARGE` exactly on 0x40404040 .. 0x7FFFFFFF. -/
def Obligations.EncFailsTooLargeExactlyFromLimitOn : Prop :=
  ∀ (val : Val) (s : State),
    (exec (.enc val) s = .next { s with answers := s.answers ++ [.response (.error .tooLarge)] } ↔
      (maxValue : Int) < val.toInt) ∧
    ((maxValue : Int) < val.toInt ↔ 0x40404040 ≤ val.toNat ∧ val.toNat ≤ 0x7FFFFFFF)

/-- R111: the number of bytes that `ENC` answers is what `LEN` answers for the first of them. -/
def Obligations.LenOfFirstByteIsTheEncodedLength : Prop :=
  ∀ (val : Val) (s t : State) (n : Bits3) (p : List Byte),
    exec (.enc val) s = .next { s with answers := s.answers ++ [.response (.encoded n p)] } →
    n.toNat = p.length ∧
    ∃ first rest, p = first :: rest ∧
      exec (.len first) t = .next { t with answers := t.answers ++ [.response (.length n)] }

/-- R110: the round trip, on the encoder's whole success domain. -/
def Obligations.DecOfEncIsTheValue : Prop :=
  ∀ (val : Val) (s t : State), 0 ≤ val.toInt → val.toInt ≤ 1077952575 →
    ∃ (n : Bits3) (p : List Byte),
      exec (.enc val) s = .next { s with answers := s.answers ++ [.response (.encoded n p)] } ∧
      ∀ b0 b1 b2 b3 : Byte, InLanes p b0 b1 b2 b3 →
        exec (.dec p.length b0 b1 b2 b3) t =
          .next { t with answers := t.answers ++ [.response (.value val)] }

/-- R112: whatever `DEC` answers with a value is the encoding of that value, `ENC` and `DEC` are both
one to one, and every well-formed sequence has a value. -/
def Obligations.EncOfDecIsTheSequence : Prop :=
  (∀ (n : Nat) (b0 b1 b2 b3 : Byte) (val : Val) (s t : State),
    exec (.dec n b0 b1 b2 b3) s =
      .next { s with answers := s.answers ++ [.response (.value val)] } →
    n ≤ 4 ∧ exec (.enc val) t = .next { t with answers := t.answers ++
      [.response (.encoded (BitVec.ofNat 3 n) ([b0, b1, b2, b3].take n))] }) ∧
  (∀ (v w : Val) (n : Bits3) (p : List Byte) (s t : State),
    exec (.enc v) s = .next { s with answers := s.answers ++ [.response (.encoded n p)] } →
    exec (.enc w) t = .next { t with answers := t.answers ++ [.response (.encoded n p)] } → v = w) ∧
  (∀ (n m : Nat) (b0 b1 b2 b3 c0 c1 c2 c3 : Byte) (val : Val) (s t : State),
    exec (.dec n b0 b1 b2 b3) s =
      .next { s with answers := s.answers ++ [.response (.value val)] } →
    exec (.dec m c0 c1 c2 c3) t =
      .next { t with answers := t.answers ++ [.response (.value val)] } →
    n = m ∧ [b0, b1, b2, b3].take n = [c0, c1, c2, c3].take m) ∧
  (∀ (p : List Byte) (b0 b1 b2 b3 : Byte) (s : State), IsPacked p → InLanes p b0 b1 b2 b3 →
    ∃ val, exec (.dec p.length b0 b1 b2 b3) s =
      .next { s with answers := s.answers ++ [.response (.value val)] })

/-- R116: a smaller value has no longer an encoding, and an encoding that comes first in the order of
bytes read as unsigned numbers. -/
def Obligations.EncodingsAreOrderedAsTheValues : Prop :=
  ∀ (v w : Val) (s t : State), 0 ≤ v.toInt → v.toInt < w.toInt → w.toInt ≤ 1077952575 →
    ∃ (n m : Bits3) (p q : List Byte),
      exec (.enc v) s = .next { s with answers := s.answers ++ [.response (.encoded n p)] } ∧
      exec (.enc w) t = .next { t with answers := t.answers ++ [.response (.encoded m q)] } ∧
      p.length ≤ q.length ∧ List.Lex (fun x y : Byte => x.toNat < y.toNat) p q

/-! ### LEN -/

/-- R80, R81: the answer of `LEN` on every byte; it depends on bits 7..6 only and is never an error. -/
def Obligations.LenAnswersTagPlusOne : Prop :=
  (∀ (b0 : Byte) (s : State),
    exec (.len b0) s = .next { s with answers := s.answers ++
      [.response (.length (BitVec.ofNat 3 (((b0 >>> 6) &&& 0b11).toNat + 1)))] } ∧
    (b0.toNat ≤ 0x3F → bandIndex (bandOfByte b0) = 0 ∧
      exec (.len b0) s = .next { s with answers := s.answers ++ [.response (.length 1)] }) ∧
    (0x40 ≤ b0.toNat → b0.toNat ≤ 0x7F → bandIndex (bandOfByte b0) = 1 ∧
      exec (.len b0) s = .next { s with answers := s.answers ++ [.response (.length 2)] }) ∧
    (0x80 ≤ b0.toNat → b0.toNat ≤ 0xBF → bandIndex (bandOfByte b0) = 2 ∧
      exec (.len b0) s = .next { s with answers := s.answers ++ [.response (.length 3)] }) ∧
    (0xC0 ≤ b0.toNat → bandIndex (bandOfByte b0) = 3 ∧
      exec (.len b0) s = .next { s with answers := s.answers ++ [.response (.length 4)] })) ∧
  (∀ (x y : Byte) (s : State), x.extractLsb' 6 2 = y.extractLsb' 6 2 →
    exec (.len x) s = exec (.len y) s)

/-! ### The packed-value formats -/

/-- R55: the value of a packed value of each format is `o + BASE[b]`; it lies in its band, is at most
`MAXV` and does not overflow 32 bits. -/
def Obligations.PackedFormatsHaveOffsetPlusBase : Prop :=
  (∀ (o : BitVec 6) (s : State), ∃ v : Val, v.toNat = o.toNat ∧ v.toNat ≤ 0x3F ∧
    exec (.pv1 o) s = .next { s with answers := s.answers ++ [.response (.value v)] }) ∧
  (∀ (o : BitVec 14) (s : State), ∃ v : Val, v.toNat = o.toNat + 0x40 ∧
    0x40 ≤ v.toNat ∧ v.toNat ≤ 0x403F ∧
    exec (.pv2 o) s = .next { s with answers := s.answers ++ [.response (.value v)] }) ∧
  (∀ (o : BitVec 22) (s : State), ∃ v : Val, v.toNat = o.toNat + 0x4040 ∧
    0x4040 ≤ v.toNat ∧ v.toNat ≤ 0x40403F ∧
    exec (.pv3 o) s = .next { s with answers := s.answers ++ [.response (.value v)] }) ∧
  (∀ (o : BitVec 30) (s : State), ∃ v : Val, v.toNat = o.toNat + 0x404040 ∧
    0x404040 ≤ v.toNat ∧ v.toNat ≤ 0x4040403F ∧
    exec (.pv4 o) s = .next { s with answers := s.answers ++ [.response (.value v)] })

/-- MODEL'S CHOICE (log 9, log 10): a packed value presented as a byte sequence is answered exactly as
the `DEC` request with that sequence in its lanes is, well-formed or not (D9, R58 (c)). -/
def Obligations.PresentedSequenceIsAnsweredAsDecAnswersIt : Prop :=
  ∀ (s : State) (p : List Byte) (rest : List Issued) (kept : Bool) (r : Request),
    r.op = 0b10#2 → r.n = p.length →
    (∀ k, k < 4 → k < p.length → [r.b0, r.b1, r.b2, r.b3][k]? = p[k]?) →
    step { s with pending := ⟨.sequence p, kept⟩ :: rest } =
        step { s with pending := ⟨.request r, kept⟩ :: rest } ∧
      step (presentNext (.sequence p) s) = step (presentNext (.request r) s)

/-! ### DEC -/

/-- R90: every case of the pseudocode, with the offset of each length written out. -/
def Obligations.DecAnswersEveryInput : Prop :=
  ∀ (n : Nat) (b0 b1 b2 b3 : Byte) (s : State),
    (n = 0 → exec (.dec n b0 b1 b2 b3) s =
      .next { s with answers := s.answers ++ [.response (.error .emptyInput)] }) ∧
    (n ≠ 0 → b0.toNat / 64 + 1 ≠ n → exec (.dec n b0 b1 b2 b3) s =
      .next { s with answers := s.answers ++ [.response (.error .lengthMismatch)] }) ∧
    (n = 1 → b0.toNat / 64 = 0 → exec (.dec n b0 b1 b2 b3) s =
      .next { s with answers := s.answers ++
        [.response (.value (BitVec.ofNat 32 (b0.toNat % 64)))] }) ∧
    (n = 2 → b0.toNat / 64 = 1 → exec (.dec n b0 b1 b2 b3) s =
      .next { s with answers := s.answers ++
        [.response (.value (BitVec.ofNat 32 (b0.toNat % 64 * 2 ^ 8 + b1.toNat + 0x40)))] }) ∧
    (n = 3 → b0.toNat / 64 = 2 → exec (.dec n b0 b1 b2 b3) s =
      .next { s with answers := s.answers ++
        [.response (.value (BitVec.ofNat 32
          (b0.toNat % 64 * 2 ^ 16 + b1.toNat * 2 ^ 8 + b2.toNat + 0x4040)))] }) ∧
    (n = 4 → b0.toNat / 64 = 3 → exec (.dec n b0 b1 b2 b3) s =
      .next { s with answers := s.answers ++
        [.response (.value (BitVec.ofNat 32
          (b0.toNat % 64 * 2 ^ 24 + b1.toNat * 2 ^ 16 + b2.toNat * 2 ^ 8 +
          b3.toNat + 0x404040)))] })

/-- R91: the empty sequence gets `ERR_EMPTY_INPUT`, whatever the lanes carry. -/
def Obligations.DecOfNothingIsEmptyInput : Prop :=
  ∀ (b0 b1 b2 b3 : Byte) (s : State),
    exec (.dec 0 b0 b1 b2 b3) s =
      .next { s with answers := s.answers ++ [.response (.error .emptyInput)] }

/-- R92: `ERR_LENGTH_MISMATCH` exactly when the actual length, not 0, is not the expected one. -/
def Obligations.DecFailsMismatchExactlyWhenLengthsDiffer : Prop :=
  ∀ (n : Nat) (b0 b1 b2 b3 : Byte) (s : State),
    exec (.dec n b0 b1 b2 b3) s =
      .next { s with answers := s.answers ++ [.response (.error .lengthMismatch)] } ↔
    1 ≤ n ∧ n ≠ (b0.extractLsb' 6 2).toNat + 1

/-- R95: what cannot influence the answer of `DEC`: bytes past index 3, lanes at or above `n`, and,
where the lengths mismatch, everything but `n` and bits 7..6 of lane 0. -/
def Obligations.DecIgnoresWhatTheSequenceDoesNotHold : Prop :=
  (∀ (n : Nat) (b0 b1 b2 b3 : Byte) (s : State), 4 < n →
    exec (.dec n b0 b1 b2 b3) s =
      .next { s with answers := s.answers ++ [.response (.error .lengthMismatch)] }) ∧
  (∀ (n : Nat) (b0 b1 b2 b3 c0 c1 c2 c3 : Byte) (s : State),
    (∀ k, k < n → [b0, b1, b2, b3][k]? = [c0, c1, c2, c3][k]?) →
    exec (.dec n b0 b1 b2 b3) s = exec (.dec n c0 c1 c2 c3) s) ∧
  (∀ (n : Nat) (b0 b1 b2 b3 c0 c1 c2 c3 : Byte) (s : State),
    exec (.dec n b0 b1 b2 b3) s =
      .next { s with answers := s.answers ++ [.response (.error .lengthMismatch)] } →
    b0.extractLsb' 6 2 = c0.extractLsb' 6 2 →
    exec (.dec n c0 c1 c2 c3) s =
      .next { s with answers := s.answers ++ [.response (.error .lengthMismatch)] })

/-! ### DECAT -/

/-- R100: every case of the pseudocode, over a BUF of `bufLen` bytes. Where `bufLen` is larger than the
readable buffer, R156 leaves the transaction without meaning: that it is left unspecified, whatever
bytes it would need, is what the model makes of that (log 5). -/
def Obligations.DecatAnswersEveryInput : Prop :=
  ∀ (start bufLen : Nat) (s : State),
    (¬ BufReadable bufLen s → exec (.decat start bufLen) s =
      .next { s with answers := s.answers ++ [.unspecified] }) ∧
    (BufReadable bufLen s →
      (bufLen ≤ start → exec (.decat start bufLen) s =
        .next { s with answers := s.answers ++ [.response (.error .bufferTooShort)] }) ∧
      (∀ x0 : Byte, start < bufLen → s.bufByte start = some x0 →
        bufLen < start + (x0.toNat / 64 + 1) → exec (.decat start bufLen) s =
        .next { s with answers := s.answers ++ [.response (.error .bufferTooShort)] }) ∧
      (∀ x0 : Byte, s.bufByte start = some x0 → x0.toNat / 64 = 0 → start + 1 ≤ bufLen →
        exec (.decat start bufLen) s = .next { s with answers := s.answers ++
          [.response (.value (BitVec.ofNat 32 (x0.toNat % 64)))] }) ∧
      (∀ x0 x1 : Byte, s.bufByte start = some x0 → s.bufByte (start + 1) = some x1 →
        x0.toNat / 64 = 1 → start + 2 ≤ bufLen →
        exec (.decat start bufLen) s = .next { s with answers := s.answers ++
          [.response (.value (BitVec.ofNat 32 (x0.toNat % 64 * 2 ^ 8 + x1.toNat + 0x40)))] }) ∧
      (∀ x0 x1 x2 : Byte, s.bufByte start = some x0 → s.bufByte (start + 1) = some x1 →
        s.bufByte (start + 2) = some x2 → x0.toNat / 64 = 2 → start + 3 ≤ bufLen →
        exec (.decat start bufLen) s = .next { s with answers := s.answers ++
          [.response (.value (BitVec.ofNat 32
            (x0.toNat % 64 * 2 ^ 16 + x1.toNat * 2 ^ 8 + x2.toNat + 0x4040)))] }) ∧
      (∀ x0 x1 x2 x3 : Byte, s.bufByte start = some x0 → s.bufByte (start + 1) = some x1 →
        s.bufByte (start + 2) = some x2 → s.bufByte (start + 3) = some x3 →
        x0.toNat / 64 = 3 → start + 4 ≤ bufLen →
        exec (.decat start bufLen) s = .next { s with answers := s.answers ++
          [.response (.value (BitVec.ofNat 32
            (x0.toNat % 64 * 2 ^ 24 + x1.toNat * 2 ^ 16 + x2.toNat * 2 ^ 8 + x3.toNat +
              0x404040)))] }))

/-- R101: over a BUF of `bufLen` bytes, a start at or past the end gets `ERR_BUFFER_TOO_SHORT` whatever
the bytes are; with `bufLen = 0`, with no byte of BUF provided at all. -/
def Obligations.DecatPastTheEndReadsNothing : Prop :=
  (∀ (start bufLen : Nat) (s : State) (m : Memory), bufLen ≤ start →
    BufReadable bufLen { s with buf := m } →
    exec (.decat start bufLen) { s with buf := m } =
      .next { s with buf := m, answers := s.answers ++ [.response (.error .bufferTooShort)] }) ∧
  (∀ (start : Nat) (s : State) (m : Memory), exec (.decat start 0) { s with buf := m } =
      .next { s with buf := m, answers := s.answers ++ [.response (.error .bufferTooShort)] })

/-- R102, R103: over a BUF of `bufLen` bytes, with a start inside it, `ERR_BUFFER_TOO_SHORT` exactly
when the packed value would run off the end, by the exact sum or by the difference. A packed value
that ends with the buffer is accepted. -/
def Obligations.DecatFailsExactlyWhenTheValueRunsOffTheEnd : Prop :=
  ∀ (start bufLen : Nat) (first : Byte) (s : State), BufReadable bufLen s →
    start < bufLen → s.bufByte start = some first →
    (exec (.decat start bufLen) s =
        .next { s with answers := s.answers ++ [.response (.error .bufferTooShort)] } ↔
      bufLen < start + ((first.extractLsb' 6 2).toNat + 1)) ∧
    (bufLen < start + ((first.extractLsb' 6 2).toNat + 1) ↔
      bufLen - start < (first.extractLsb' 6 2).toNat + 1) ∧
    (start + ((first.extractLsb' 6 2).toNat + 1) ≤ bufLen →
      ∃ val, exec (.decat start bufLen) s =
        .next { s with answers := s.answers ++ [.response (.value val)] })

/-- R34, R106: `DECAT` answers the same over two buffers of `bufLen` bytes that agree on the bytes that
R34 names. -/
def Obligations.DecatDependsOnItsPackedValueOnly : Prop :=
  ∀ (start bufLen : Nat) (s t : State) (r : Response), BufReadable bufLen t →
    (start < bufLen → t.bufByte start = s.bufByte start) →
    (∀ first : Byte, s.bufByte start = some first →
      start + (first.toNat / 64 + 1) ≤ bufLen →
      ∀ a, start ≤ a → a < start + (first.toNat / 64 + 1) → t.bufByte a = s.bufByte a) →
    exec (.decat start bufLen) s = .next { s with answers := s.answers ++ [.response r] } →
    exec (.decat start bufLen) t = .next { t with answers := t.answers ++ [.response r] }

/-- R107: `DECAT` over a BUF of `bufLen` bytes answers what `DEC` answers on the sub-range; and over a
buffer that is one byte sequence they differ as R107 says, on malformed input only. -/
def Obligations.DecatIsDecOnItsSubrange : Prop :=
  (∀ (start bufLen : Nat) (p : List Byte) (b0 b1 b2 b3 : Byte) (r : Response) (s t : State),
    BufReadable bufLen s → IsPacked p → InBuf p start s → InLanes p b0 b1 b2 b3 →
    start + p.length ≤ bufLen →
    (exec (.decat start bufLen) s = .next { s with answers := s.answers ++ [.response r] } ↔
      exec (.dec p.length b0 b1 b2 b3) t =
        .next { t with answers := t.answers ++ [.response r] })) ∧
  (∀ (b0 b1 b2 b3 : Byte) (s t : State),
    exec (.dec 0 b0 b1 b2 b3) t =
        .next { t with answers := t.answers ++ [.response (.error .emptyInput)] } ∧
      exec (.decat 0 0) s =
        .next { s with answers := s.answers ++ [.response (.error .bufferTooShort)] }) ∧
  (∀ (first : Byte) (rest : List Byte) (b1 b2 b3 : Byte) (s t : State),
    InBuf (first :: rest) 0 s →
    ((first :: rest).length < first.toNat / 64 + 1 →
      exec (.dec (first :: rest).length first b1 b2 b3) t =
          .next { t with answers := t.answers ++ [.response (.error .lengthMismatch)] } ∧
        exec (.decat 0 (first :: rest).length) s =
          .next { s with answers := s.answers ++ [.response (.error .bufferTooShort)] }) ∧
    (first.toNat / 64 + 1 < (first :: rest).length →
      exec (.dec (first :: rest).length first b1 b2 b3) t =
          .next { t with answers := t.answers ++ [.response (.error .lengthMismatch)] } ∧
        ∃ val, exec (.decat 0 (first :: rest).length) s =
          .next { s with answers := s.answers ++ [.response (.value val)] }))

/-- R113: a value's encoding, embedded anywhere in a padded buffer, is decoded back to the value. -/
def Obligations.EmbeddedEncodingIsDecodedInPlace : Prop :=
  ∀ (val : Val) (pre post : List Byte) (s t : State), 0 ≤ val.toInt → val.toInt ≤ 1077952575 →
    ∃ (n : Bits3) (p : List Byte),
      exec (.enc val) s = .next { s with answers := s.answers ++ [.response (.encoded n p)] } ∧
      (InBuf (pre ++ p ++ post) 0 t →
        exec (.decat pre.length (pre ++ p ++ post).length) t =
          .next { t with answers := t.answers ++ [.response (.value val)] })

/-- R105: the only error that `DECAT` answers is `ERR_BUFFER_TOO_SHORT`. -/
def Obligations.DecatAnswersNoErrorOfDec : Prop :=
  ∀ (start bufLen : Nat) (s : State) (k : ErrorKind),
    exec (.decat start bufLen) s = .next { s with answers := s.answers ++ [.response (.error k)] } →
    k ≠ .lengthMismatch ∧ k ≠ .emptyInput ∧ k = .bufferTooShort

/-- R31, R104: `DECAT` never makes a read of BUF at or above the buffer length, nor one that gives no
byte, so it ends in a next state always. It gets a response exactly when the host has kept its duty
about the buffer length (R156; log 5). -/
def Obligations.DecatNeverReadsOutsideTheBuffer : Prop :=
  ∀ (start bufLen : Nat) (s : State),
    (∀ f, exec (.decat start bufLen) s ≠ .fault f) ∧
    ((∃ r, exec (.decat start bufLen) s =
        .next { s with answers := s.answers ++ [.response r] }) ↔ BufReadable bufLen s) ∧
    (exec (.decat start bufLen) s = .next { s with answers := s.answers ++ [.unspecified] } ↔
      ∃ a, a < bufLen ∧ s.bufByte a = none)

/-! ### Errors -/

/-- R130: each error kind is answered by the operation, and on the exact condition, of the table; for
`DECAT` over a BUF of `req.buf_len` bytes. -/
def Obligations.ErrorsAreRaisedExactlyAsTabled : Prop :=
  ∀ (i : Instr) (s : State) (k : ErrorKind),
    exec i s = .next { s with answers := s.answers ++ [.response (.error k)] } ↔
      (∃ val : Val, i = .enc val ∧ k = .negative ∧ val.toInt < 0) ∨
      (∃ val : Val, i = .enc val ∧ k = .tooLarge ∧ 1077952575 < val.toInt) ∨
      (∃ n b0 b1 b2 b3, i = .dec n b0 b1 b2 b3 ∧ k = .emptyInput ∧ n = 0) ∨
      (∃ n b0 b1 b2 b3, i = .dec n b0 b1 b2 b3 ∧ k = .lengthMismatch ∧ 1 ≤ n ∧
        n ≠ (b0.extractLsb' 6 2).toNat + 1) ∨
      (∃ start bufLen, i = .decat start bufLen ∧ k = .bufferTooShort ∧ BufReadable bufLen s ∧
        (bufLen ≤ start ∨ ∃ first, s.bufByte start = some first ∧
          bufLen < start + ((first.extractLsb' 6 2).toNat + 1)))

/-- R61: the status codes, one per outcome, never 6 or 7. -/
def Obligations.StatusCodesAreAsTabled : Prop :=
  (∀ (n : Bits3) (p : List Byte), (Response.encoded n p).status = 0) ∧
  (∀ n : Bits3, (Response.length n).status = 0) ∧
  (∀ v : Val, (Response.value v).status = 0) ∧
  (Response.error .negative).status = 1 ∧ (Response.error .tooLarge).status = 2 ∧
  (Response.error .lengthMismatch).status = 3 ∧ (Response.error .bufferTooShort).status = 4 ∧
  (Response.error .emptyInput).status = 5 ∧
  ∀ r : Response, r.status ≠ 6 ∧ r.status ≠ 7

/-- R17, R131, R133, R141: an error leaves nothing behind. The same request gives the same error
again, and every other request is answered as if the error had not been. -/
def Obligations.ErrorsLeaveNothingBehind : Prop :=
  ∀ (i : Instr) (s t : State) (k : ErrorKind),
    exec i s = .next t → t.answers = s.answers ++ [.response (.error k)] →
    exec i t = .next { t with answers := t.answers ++ [.response (.error k)] } ∧
    ∀ (j : Instr) (r : Answer),
      exec j s = .next { s with answers := s.answers ++ [r] } ↔
        exec j t = .next { t with answers := t.answers ++ [r] }

/-! ### The machine -/

/-- A step runs the instruction that the oldest pending transaction decodes to, that transaction
taken off the request port; the response port and BUF are as the instruction finds them. One issued
with the duty of R156 broken is left unspecified instead. -/
def Obligations.StepRunsTheDecodedInstruction : Prop :=
  ∀ (s : State) (x : Issued) (rest : List Issued) (i : Instr),
    s.pending = x :: rest → decode x.input = .ok i →
    (x.dutyKept = true → step s = exec i { s with pending := rest }) ∧
    (x.dutyKept = false → step s =
      .next { s with pending := rest, answers := s.answers ++ [.unspecified] })

/-- R11: a transaction presented and performed at once is the instruction that it decodes to, executed
in the state in which it is presented, whether or not the host keeps its duty of R156. -/
def Obligations.PresentedTransactionIsExecuted : Prop :=
  ∀ (s : State) (x : Input) (i : Instr), decode x = .ok i → step (presentNext x s) = exec i s

/-- MODEL'S CHOICE (log 3): a step with no transaction pending changes nothing. -/
def Obligations.StepWithNothingPendingChangesNothing : Prop :=
  ∀ s : State, s.pending = [] → step s = .next s

/-- The frame of every instruction (ENC, LEN, DEC, DECAT, PV1 to PV4): one answer is delivered; no
pending transaction and no byte of BUF changes (R10, R14, R36). -/
def Obligations.ExecDeliversOneAnswerAndChangesNothingElse : Prop :=
  ∀ (i : Instr) (s t : State), exec i s = .next t →
    t.pending = s.pending ∧ (∀ a, t.bufByte a = s.bufByte a) ∧
    ∃ r, t.answers = s.answers ++ [r]

/-- R36, R158: a step answers one pending transaction with exactly one answer, keeps the others, and
writes no byte of BUF. That the one is the oldest is the MODEL'S CHOICE (log 2). -/
def Obligations.StepAnswersOneTransactionAndWritesNoMemory : Prop :=
  ∀ (s t : State) (x : Issued) (rest : List Issued), s.pending = x :: rest → step s = .next t →
    t.pending = rest ∧ (∀ a, t.bufByte a = s.bufByte a) ∧
    ∃ r, t.answers = s.answers ++ [r]

/-- R25, R158: the step is always enabled, in every state, whatever is pending and whatever BUF holds:
it gives a next state, never a fault or a refusal. -/
def Obligations.StepIsAlwaysEnabled : Prop :=
  ∀ s : State, ∃ t, step s = .next t

/-- R10, R117: what an instruction does is a function of its operands and of BUF alone; nothing that
the machine has answered, or has yet to answer, can be seen in it. -/
def Obligations.ResponseIsAFunctionOfRequestAndBuffer : Prop :=
  ∃ f : Instr → Memory → Answer, ∀ (i : Instr) (s : State),
    exec i s = .next { s with answers := s.answers ++ [f i s.buf] }

/-- R23, R150: the first transaction after reset behaves as any other transaction. -/
def Obligations.FirstTransactionAfterResetIsAsAnyOther : Prop :=
  ∀ (x : Issued) (s : State) (rest : List Issued) (r : Answer),
    step { State.reset with pending := [x], buf := s.buf } =
        .next { State.reset with buf := s.buf, answers := [r] } ↔
      step { s with pending := x :: rest } =
        .next { s with pending := rest, answers := s.answers ++ [r] }

/-- R10, R24, R158: as many steps as transactions are pending answer all of them, each with the answer
that it gets alone, also behind one that a broken duty leaves without meaning. That they are answered
in the order of issue, so that the k-th answer is the k-th transaction's, is the MODEL'S CHOICE
(log 2). -/
def Obligations.RunAnswersEveryTransactionAsIfItWereAlone : Prop :=
  ∀ s : State,
    ∃ rs : List Answer,
      Host.Core.run Sys2Proof.core s.pending.length s =
        .next { s with pending := [], answers := s.answers ++ rs } ∧
      rs.length = s.pending.length ∧
      ∀ (k : Nat) (x : Issued) (r : Answer), s.pending[k]? = some x → rs[k]? = some r →
        step { pending := [x], buf := s.buf, answers := [] } =
          .next { pending := [], buf := s.buf, answers := [r] }

/-- R24: no ordering between transactions is observable. Issued in another order, they get the same
answers, each its own. That a transaction's answer is the one at its position among the issued is the
MODEL'S CHOICE (log 2). -/
def Obligations.OrderOfTransactionsIsNotObservable : Prop :=
  ∀ (s : State) (xs : List Issued), s.pending.Perm xs →
    ∃ rs qs : List Answer,
      Host.Core.run Sys2Proof.core s.pending.length s =
        .next { s with pending := [], answers := s.answers ++ rs } ∧
      Host.Core.run Sys2Proof.core xs.length { s with pending := xs } =
        .next { s with pending := [], answers := s.answers ++ qs } ∧
      (s.pending.zip rs).Perm (xs.zip qs)

/-! ### The host's writes -/

/-- R38 (a), R38 (c), R153, U5: the host's write of a byte is no move of the model exactly when it would
change a byte in the window of a pending `DECAT`; every other write is made, and is a write of that one
byte. That every issued and unanswered `DECAT` counts as running is R38 (a). -/
def Obligations.HostWriteIsNoMoveExactlyInAPendingWindow : Prop :=
  ∀ (s : State) (a : Nat) (x : Byte),
    (s.hostWrite a x = none ↔ s.bufByte a ≠ some x ∧
      ∃ y ∈ s.pending, ∃ start bufLen, decode y.input = .ok (.decat start bufLen) ∧
        start ≤ a ∧ a < start + 4 ∧ a < bufLen) ∧
    (∀ t, s.hostWrite a x = some t → t.pending = s.pending ∧ t.answers = s.answers ∧
      ∀ b, t.bufByte b = if b = a then some x else s.bufByte b)

/-- R38 (a), R156: what the host may write between issue and response ("change BUF outside that window")
changes no response: a pending transaction that gets a response over BUF before the write gets the same
one over BUF after it; and where the duties are recorded as at the issue (`DutiesRecorded`, part of the
invariant), none gets another answer, so that a write does not mend a duty broken at the issue. -/
def Obligations.HostWritesKeepTheResponsesOfPendingTransactions : Prop :=
  ∀ (s t : State) (a : Nat) (x : Byte) (y : Issued),
    s.hostWrite a x = some t → y ∈ s.pending →
    (∀ r : Response,
      step { pending := [y], buf := s.buf, answers := [] } =
        .next { pending := [], buf := s.buf, answers := [.response r] } →
      step { pending := [y], buf := t.buf, answers := [] } =
        .next { pending := [], buf := t.buf, answers := [.response r] }) ∧
    (DutiesRecorded s → ∀ r : Answer,
      step { pending := [y], buf := s.buf, answers := [] } =
        .next { pending := [], buf := s.buf, answers := [r] } ↔
      step { pending := [y], buf := t.buf, answers := [] } =
        .next { pending := [], buf := t.buf, answers := [r] })

/-- R151, R156: whether the host has kept its duty about `req.buf_len` is settled "before the request is
issued". Issued over a BUF too short, a `DECAT` is left unspecified (log 5) whatever BUF holds when it is
performed; issued over a BUF of `req.buf_len` bytes, it is executed. -/
def Obligations.DutyIsJudgedWhenTheRequestIsIssued : Prop :=
  ∀ (s t : State) (x : Input) (start bufLen : Nat) (rest : List Issued),
    decode x = .ok (.decat start bufLen) → t.pending = s.issued x :: rest →
    (¬ BufReadable bufLen s → step t =
      .next { t with pending := rest, answers := t.answers ++ [.unspecified] }) ∧
    (BufReadable bufLen s → step t = exec (.decat start bufLen) { t with pending := rest })

/-! ### The invariant -/

/-- Every step keeps the invariant: BUF canonical and inside its index space, pending transactions
within their field widths (R12) and with their duties recorded (R156), every response within the ranges
of R13. -/
def Obligations.StepKeepsTheInvariant : Prop :=
  ∀ s t : State, Invariant s → step s = .next t → Invariant t

/-- The host's acts keep it too: issuing a transaction within its field widths (R12), and writing a byte
of BUF inside the index space (R30). -/
def Obligations.HostActsKeepTheInvariant : Prop :=
  (∀ (s : State) (x : Input), Invariant s → x.wellFormed → Invariant (s.issue x)) ∧
  (∀ (s t : State) (a : Nat) (x : Byte), Invariant s → a + 1 < 2 ^ Config.IDXW →
    s.hostWrite a x = some t → Invariant t)

/-- The model's state after reset (log 4) meets the invariant. -/
def Obligations.ResetMeetsTheInvariant : Prop := Invariant State.reset
end

