-- ==== Sys2Proof/Laws/Decode.lean ====
section
/-! SUPPORT. The fields of the packed-value formats as numbers. -/

namespace Sys2Proof

theorem tagBits_firstByte (tag : BitVec 2) (high : BitVec 6) : tagBits (firstByte tag high) = tag := by
  revert tag high
  decide

theorem lowBits_firstByte (tag : BitVec 2) (high : BitVec 6) :
    lowBits (firstByte tag high) = high := by
  revert tag high
  decide

theorem firstByte_fields (b : Byte) : firstByte (tagBits b) (lowBits b) = b := by
  revert b
  decide

theorem append_byte_toNat {w : Nat} (high : BitVec w) (x : Byte) :
    (high ++ x).toNat = high.toNat * 256 + x.toNat := by
  rw [BitVec.toNat_append, ← Nat.shiftLeft_add_eq_or_of_lt x.isLt, Nat.shiftLeft_eq]

theorem offset14_toNat (high : BitVec 6) (s1 : Byte) :
    (offset14 high s1).toNat = high.toNat * 256 + s1.toNat := append_byte_toNat high s1

theorem offset22_toNat (high : BitVec 6) (s1 s2 : Byte) :
    (offset22 high s1 s2).toNat = (high.toNat * 256 + s1.toNat) * 256 + s2.toNat :=
  (append_byte_toNat (high ++ s1) s2).trans (by rw [append_byte_toNat])

theorem offset30_toNat (high : BitVec 6) (s1 s2 s3 : Byte) :
    (offset30 high s1 s2 s3).toNat =
      ((high.toNat * 256 + s1.toNat) * 256 + s2.toNat) * 256 + s3.toNat :=
  (append_byte_toNat (high ++ s1 ++ s2) s3).trans (by rw [append_byte_toNat, append_byte_toNat])

theorem offset14_slices (o : BitVec 14) : offset14 (o.extractLsb' 8 6) (o.extractLsb' 0 8) = o := by
  apply BitVec.eq_of_toNat_eq
  rw [offset14_toNat]
  simp only [BitVec.extractLsb'_toNat, Nat.shiftRight_eq_div_pow]
  have := o.isLt
  omega

theorem offset22_slices (o : BitVec 22) :
    offset22 (o.extractLsb' 16 6) (o.extractLsb' 8 8) (o.extractLsb' 0 8) = o := by
  apply BitVec.eq_of_toNat_eq
  rw [offset22_toNat]
  simp only [BitVec.extractLsb'_toNat, Nat.shiftRight_eq_div_pow]
  have := o.isLt
  omega

theorem offset30_slices (o : BitVec 30) :
    offset30 (o.extractLsb' 24 6) (o.extractLsb' 16 8) (o.extractLsb' 8 8) (o.extractLsb' 0 8) =
      o := by
  apply BitVec.eq_of_toNat_eq
  rw [offset30_toNat]
  simp only [BitVec.extractLsb'_toNat, Nat.shiftRight_eq_div_pow]
  have := o.isLt
  omega

end Sys2Proof
end

