-- ==== Sys2Proof/Laws/Operands.lean ====
section
/-! SUPPORT. The bytes of a packed value as numbers: tag, low bits, offsets, and the bytes of a value
band by band. -/

namespace Sys2Proof.Machine

open Sys2Proof

theorem tagBits_toNat (b : Byte) : (tagBits b).toNat = b.toNat / 64 := by
  simp only [tagBits, BitVec.extractLsb'_toNat, Nat.shiftRight_eq_div_pow]
  have := b.isLt
  omega

theorem lowBits_toNat (b : Byte) : (lowBits b).toNat = b.toNat % 64 := by
  simp [lowBits, BitVec.extractLsb'_toNat]

/-- `expected_length` as a number (R80). -/
theorem expectedLength_eq (b : Byte) : expectedLength b = b.toNat / 64 + 1 := by
  rw [expectedLength, tagBits_toNat]

theorem expectedLength_pos (b : Byte) : 1 ≤ expectedLength b := by
  rw [expectedLength_eq]; omega

theorem expectedLength_le (b : Byte) : expectedLength b ≤ 4 := by
  rw [expectedLength_eq]
  have := b.isLt
  omega

/-- The tag of a first byte is its band's number (R50). -/
theorem tagBits_eq (b : Byte) : tagBits b = BitVec.ofNat 2 (b.toNat / 64) := by
  apply BitVec.eq_of_toNat_eq
  rw [tagBits_toNat, BitVec.toNat_ofNat]
  have := b.isLt
  omega

theorem bandIndex_bandOfByte (b : Byte) : bandIndex (bandOfByte b) = b.toNat / 64 := by
  rw [← tagBits_toNat]
  unfold bandOfByte
  generalize tagBits b = t
  revert t
  decide

theorem expectedLength_eq_bandLength (b : Byte) :
    expectedLength b = bandLength (bandOfByte b) := by
  rw [expectedLength_eq, bandLength, bandIndex_bandOfByte]

theorem bandIndex_inj {b c : Band} (h : bandIndex b = bandIndex c) : b = c := by
  cases b <;> cases c <;> first | rfl | cases h

/-- The band of a first byte, from its number. -/
theorem bandOfByte_eq {b : Byte} {c : Band} (h : b.toNat / 64 = bandIndex c) : bandOfByte b = c :=
  bandIndex_inj ((bandIndex_bandOfByte b).trans h)

theorem shift_or_byte (o : Nat) (x : Byte) : (o <<< 8) ||| x.toNat = o * 256 + x.toNat := by
  rw [← Nat.shiftLeft_add_eq_or_of_lt x.isLt, Nat.shiftLeft_eq]

theorem offsetOf_one (s0 : Byte) : offsetOf [s0] = s0.toNat % 64 := by
  simp [offsetOf, lowBits_toNat]

theorem offsetOf_two (s0 s1 : Byte) : offsetOf [s0, s1] = s0.toNat % 64 * 256 + s1.toNat := by
  simp [offsetOf, lowBits_toNat, shift_or_byte]

theorem offsetOf_three (s0 s1 s2 : Byte) :
    offsetOf [s0, s1, s2] = (s0.toNat % 64 * 256 + s1.toNat) * 256 + s2.toNat := by
  simp [offsetOf, lowBits_toNat, shift_or_byte]

theorem offsetOf_four (s0 s1 s2 s3 : Byte) :
    offsetOf [s0, s1, s2, s3] =
      ((s0.toNat % 64 * 256 + s1.toNat) * 256 + s2.toNat) * 256 + s3.toNat := by
  simp [offsetOf, lowBits_toNat, shift_or_byte]

/-- The value of a packed value of one byte (R55). -/
theorem packedValue_one {s0 : Byte} (h : s0.toNat / 64 = 0) :
    packedValue s0 [] = BitVec.ofNat 32 (s0.toNat % 64) := by
  rw [packedValue, bandOfByte_eq (c := .band0) h, offsetOf_one]
  rfl

/-- The value of a packed value of two bytes (R55). -/
theorem packedValue_two {s0 : Byte} (s1 : Byte) (h : s0.toNat / 64 = 1) :
    packedValue s0 [s1] = BitVec.ofNat 32 (s0.toNat % 64 * 256 + s1.toNat + 0x40) := by
  rw [packedValue, bandOfByte_eq (c := .band1) h, offsetOf_two]
  rfl

/-- The value of a packed value of three bytes (R55). -/
theorem packedValue_three {s0 : Byte} (s1 s2 : Byte) (h : s0.toNat / 64 = 2) :
    packedValue s0 [s1, s2] =
      BitVec.ofNat 32 ((s0.toNat % 64 * 256 + s1.toNat) * 256 + s2.toNat + 0x4040) := by
  rw [packedValue, bandOfByte_eq (c := .band2) h, offsetOf_three]
  rfl

/-- The value of a packed value of four bytes (R55). -/
theorem packedValue_four {s0 : Byte} (s1 s2 s3 : Byte) (h : s0.toNat / 64 = 3) :
    packedValue s0 [s1, s2, s3] =
      BitVec.ofNat 32
        (((s0.toNat % 64 * 256 + s1.toNat) * 256 + s2.toNat) * 256 + s3.toNat + 0x404040) := by
  rw [packedValue, bandOfByte_eq (c := .band3) h, offsetOf_four]
  rfl

/-- The four shapes of a well-formed packed value (R53, R57). -/
theorem isPacked_cases {p : List Byte} (h : IsPacked p) :
    (∃ s0 : Byte, p = [s0] ∧ s0.toNat / 64 = 0) ∨
    (∃ s0 s1 : Byte, p = [s0, s1] ∧ s0.toNat / 64 = 1) ∨
    (∃ s0 s1 s2 : Byte, p = [s0, s1, s2] ∧ s0.toNat / 64 = 2) ∨
    (∃ s0 s1 s2 s3 : Byte, p = [s0, s1, s2, s3] ∧ s0.toNat / 64 = 3) := by
  obtain ⟨s0, rest, rfl, hl⟩ := h
  have hb := expectedLength_le s0
  rw [expectedLength_eq, List.length_cons] at hl
  have hr : rest.length = s0.toNat / 64 := by omega
  rw [expectedLength_eq] at hb
  match rest, hr with
  | [], hr => exact .inl ⟨s0, rfl, hr.symm⟩
  | [s1], hr => exact .inr (.inl ⟨s0, s1, rfl, hr.symm⟩)
  | [s1, s2], hr => exact .inr (.inr (.inl ⟨s0, s1, s2, rfl, hr.symm⟩))
  | [s1, s2, s3], hr => exact .inr (.inr (.inr ⟨s0, s1, s2, s3, rfl, hr.symm⟩))
  | _ :: _ :: _ :: _ :: _, hr => simp at hr; omega

/-- The band of a value, by its three thresholds (R73). -/
theorem bandOfValue_eq (v : Nat) :
    bandOfValue v =
      if v < 0x40 then .band0 else if v < 0x4040 then .band1
      else if v < 0x404040 then .band2 else .band3 := rfl

theorem bandOfValue_band0 {v : Nat} (h : v < 0x40) : bandOfValue v = .band0 := by
  rw [bandOfValue_eq, if_pos h]

theorem bandOfValue_band1 {v : Nat} (h : 0x40 ≤ v) (h' : v < 0x4040) : bandOfValue v = .band1 := by
  rw [bandOfValue_eq, if_neg (by omega), if_pos h']

theorem bandOfValue_band2 {v : Nat} (h : 0x4040 ≤ v) (h' : v < 0x404040) :
    bandOfValue v = .band2 := by
  rw [bandOfValue_eq, if_neg (by omega), if_neg (by omega), if_pos h']

theorem bandOfValue_band3 {v : Nat} (h : 0x404040 ≤ v) : bandOfValue v = .band3 := by
  rw [bandOfValue_eq, if_neg (by omega), if_neg (by omega), if_neg (by omega)]

/-- A tag and six offset bits occupy disjoint bits of byte 0, so OR is a sum (R56, R75). -/
theorem tag_or_toNat (b : Band) {x : Nat} (h : x < 64) :
    bandTag b ||| BitVec.ofNat 8 x = BitVec.ofNat 8 (64 * bandIndex b + x) := by
  have key : ∀ y : Fin 64, bandTag b ||| BitVec.ofNat 8 y = BitVec.ofNat 8 (64 * bandIndex b + y) := by
    cases b <;> decide
  exact key ⟨x, h⟩

theorem low_byte (o : Nat) : BitVec.ofNat 8 (o &&& 0xFF) = BitVec.ofNat 8 o := by
  apply BitVec.eq_of_toNat_eq
  rw [show (0xFF : Nat) = 2 ^ 8 - 1 from rfl, Nat.and_two_pow_sub_one_eq_mod]
  simp

/-- The bytes of a value of band 0 (R56). -/
theorem packValue_band0 {v : Nat} (h : v < 0x40) : packValue v = [BitVec.ofNat 8 v] := by
  simp only [packValue, bandOfValue_band0 h, bandLength, bandIndex, bandBase]
  simp only [Nat.shiftRight_eq_div_pow, List.range_zero, List.map_nil]
  norm_num
  rw [tag_or_toNat .band0 h]
  simp [bandIndex]

/-- The bytes of a value of band 1 (R56). -/
theorem packValue_band1 {v : Nat} (h : 0x40 ≤ v) (h' : v < 0x4040) :
    packValue v = [BitVec.ofNat 8 (0x40 + (v - 0x40) / 256), BitVec.ofNat 8 (v - 0x40)] := by
  simp only [packValue, bandOfValue_band1 h h', bandLength, bandIndex, bandBase, low_byte,
    Nat.shiftRight_eq_div_pow]
  norm_num [List.range_succ]
  rw [tag_or_toNat .band1 (by omega)]
  rfl

/-- The bytes of a value of band 2 (R56). -/
theorem packValue_band2 {v : Nat} (h : 0x4040 ≤ v) (h' : v < 0x404040) :
    packValue v = [BitVec.ofNat 8 (0x80 + (v - 0x4040) / 65536), BitVec.ofNat 8 ((v - 0x4040) / 256),
      BitVec.ofNat 8 (v - 0x4040)] := by
  simp only [packValue, bandOfValue_band2 h h', bandLength, bandIndex, bandBase, low_byte,
    Nat.shiftRight_eq_div_pow]
  norm_num [List.range_succ]
  rw [tag_or_toNat .band2 (by omega)]
  rfl

/-- The bytes of a value of band 3 (R56). -/
theorem packValue_band3 {v : Nat} (h : 0x404040 ≤ v) (h' : v < 0x40404040) :
    packValue v = [BitVec.ofNat 8 (0xC0 + (v - 0x404040) / 16777216),
      BitVec.ofNat 8 ((v - 0x404040) / 65536), BitVec.ofNat 8 ((v - 0x404040) / 256),
      BitVec.ofNat 8 (v - 0x404040)] := by
  simp only [packValue, bandOfValue_band3 h, bandLength, bandIndex, bandBase, low_byte,
    Nat.shiftRight_eq_div_pow]
  norm_num [List.range_succ]
  rw [tag_or_toNat .band3 (by omega)]
  rfl

end Sys2Proof.Machine
end

