-- ==== Sys2Proof/Laws/State.lean ====
section
/-! SUPPORT. One lemma per field per update of `State`, and the frame of the operations. -/

namespace Sys2Proof.Machine

open Sys2Proof

@[simp] theorem answer_pending (x : Answer) (s : State) : (s.answer x).pending = s.pending := rfl
@[simp] theorem answer_buf (x : Answer) (s : State) : (s.answer x).buf = s.buf := rfl
@[simp] theorem answer_answers (x : Answer) (s : State) :
    (s.answer x).answers = s.answers ++ [x] := rfl
@[simp] theorem answer_bufByte (x : Answer) (s : State) (a : Nat) :
    (s.answer x).bufByte a = s.bufByte a := rfl

@[simp] theorem respond_pending (r : Response) (s : State) : (s.respond r).pending = s.pending := rfl
@[simp] theorem respond_buf (r : Response) (s : State) : (s.respond r).buf = s.buf := rfl
@[simp] theorem respond_answers (r : Response) (s : State) :
    (s.respond r).answers = s.answers ++ [.response r] := rfl
@[simp] theorem respond_bufByte (r : Response) (s : State) (a : Nat) :
    (s.respond r).bufByte a = s.bufByte a := rfl

@[simp] theorem raise_pending (k : ErrorKind) (s : State) : (s.raise k).pending = s.pending := rfl
@[simp] theorem raise_buf (k : ErrorKind) (s : State) : (s.raise k).buf = s.buf := rfl
@[simp] theorem raise_answers (k : ErrorKind) (s : State) :
    (s.raise k).answers = s.answers ++ [.response (.error k)] := rfl
@[simp] theorem raise_bufByte (k : ErrorKind) (s : State) (a : Nat) :
    (s.raise k).bufByte a = s.bufByte a := rfl

@[simp] theorem leaveUnspecified_pending (s : State) : s.leaveUnspecified.pending = s.pending := rfl
@[simp] theorem leaveUnspecified_buf (s : State) : s.leaveUnspecified.buf = s.buf := rfl
@[simp] theorem leaveUnspecified_answers (s : State) :
    s.leaveUnspecified.answers = s.answers ++ [.unspecified] := rfl
@[simp] theorem leaveUnspecified_bufByte (s : State) (a : Nat) :
    s.leaveUnspecified.bufByte a = s.bufByte a := rfl

@[simp] theorem issued_input (x : Input) (s : State) : (s.issued x).input = x := rfl
@[simp] theorem issued_dutyKept (x : Input) (s : State) :
    (s.issued x).dutyKept = inputKeepsDuty s.buf x := rfl

@[simp] theorem issue_pending (x : Input) (s : State) :
    (s.issue x).pending = s.pending ++ [s.issued x] := rfl
@[simp] theorem issue_buf (x : Input) (s : State) : (s.issue x).buf = s.buf := rfl
@[simp] theorem issue_answers (x : Input) (s : State) : (s.issue x).answers = s.answers := rfl
@[simp] theorem issue_bufByte (x : Input) (s : State) (a : Nat) :
    (s.issue x).bufByte a = s.bufByte a := rfl

@[simp] theorem rejectSequence_pending (e : DecodeError) (s : State) :
    (rejectSequence e s).pending = s.pending := rfl
@[simp] theorem rejectSequence_buf (e : DecodeError) (s : State) :
    (rejectSequence e s).buf = s.buf := rfl
@[simp] theorem rejectSequence_answers (e : DecodeError) (s : State) :
    (rejectSequence e s).answers = s.answers ++ [.response (.error (rejectionKind e))] := rfl

@[simp] theorem presentNext_pending (x : Input) (s : State) :
    (presentNext x s).pending = s.issued x :: s.pending := rfl
@[simp] theorem presentNext_buf (x : Input) (s : State) : (presentNext x s).buf = s.buf := rfl
@[simp] theorem presentNext_answers (x : Input) (s : State) :
    (presentNext x s).answers = s.answers := rfl

@[simp] theorem withFetchWord_pending (s : State) (nbits w : Nat) :
    (s.withFetchWord nbits w).pending = s.issued (inputOfTableWord nbits w) :: s.pending := rfl
@[simp] theorem withFetchWord_buf (s : State) (nbits w : Nat) :
    (s.withFetchWord nbits w).buf = s.buf := rfl
@[simp] theorem withFetchWord_answers (s : State) (nbits w : Nat) :
    (s.withFetchWord nbits w).answers = s.answers := rfl

@[simp] theorem reset_pending : State.reset.pending = [] := rfl
@[simp] theorem reset_buf : State.reset.buf = [] := rfl
@[simp] theorem reset_answers : State.reset.answers = [] := rfl

/-- Two answers differ exactly as the states that delivered them do. -/
theorem answer_inj {x y : Answer} {s : State} (h : s.answer x = s.answer y) : x = y := by
  have := congrArg State.answers h
  simpa using this

/-- Two responses differ exactly as the states that delivered them do. -/
theorem respond_inj {r q : Response} {s : State} (h : s.respond r = s.respond q) : r = q :=
  Answer.response.inj (answer_inj h)

/-- A state with a response delivered is not one with a transaction left unspecified. -/
theorem respond_ne_leaveUnspecified (r : Response) (s : State) : s.respond r ≠ s.leaveUnspecified :=
  fun h => Answer.noConfusion (answer_inj h)

end Sys2Proof.Machine
end

