-- ==== Sys2Proof/Laws/Ops.lean ====
section
/-! SUPPORT. What the operations over BUF do, said once each. -/

namespace Sys2Proof.Machine

open Sys2Proof

@[simp] theorem read_nil (a : Nat) : Memory.read [] a = none := rfl

@[simp] theorem read_cons (k : Nat) (x : Byte) (m : Memory) (a : Nat) :
    Memory.read ((k, x) :: m) a = if a = k then some x else Memory.read m a := rfl

/-- Reading after a write: the byte written at its index, the byte before everywhere else. -/
theorem read_write (m : Memory) (a : Nat) (x : Byte) (b : Nat) :
    (m.write a x).read b = if b = a then some x else m.read b := by
  induction m with
  | nil => simp [Memory.write]
  | cons c m ih =>
    obtain ⟨k, y⟩ := c
    simp only [Memory.write]
    split_ifs <;> simp_all

/-- The canonical form, unfolded once: the head's index is below every later index. -/
theorem wf_cons {k : Nat} {y : Byte} {m : Memory} :
    Memory.wf ((k, y) :: m) = true ↔ (∀ c ∈ m, k < c.1) ∧ m.wf = true := by
  induction m generalizing k y with
  | nil => simp [Memory.wf]
  | cons c m ih =>
    obtain ⟨l, z⟩ := c
    simp only [Memory.wf, Bool.and_eq_true, decide_eq_true_eq, ih, List.mem_cons]
    constructor
    · rintro ⟨hkl, hl, hm⟩
      refine ⟨?_, hl, hm⟩
      rintro c (rfl | hc)
      · exact hkl
      · exact hkl.trans (hl c hc)
    · rintro ⟨hk, hl, hm⟩
      exact ⟨hk (l, z) (.inl rfl), hl, hm⟩

/-- Every listed index of a written memory was listed or is the index written. -/
theorem mem_write {m : Memory} {a : Nat} {x : Byte} {c : Host.Cell} (h : c ∈ m.write a x) :
    c = (a, x) ∨ c ∈ m := by
  induction m with
  | nil => simpa [Memory.write] using h
  | cons d m ih =>
    obtain ⟨k, y⟩ := d
    simp only [Memory.write] at h
    split_ifs at h <;> grind

/-- A write keeps the canonical form. -/
theorem write_wf {m : Memory} (a : Nat) (x : Byte) (h : m.wf = true) : (m.write a x).wf = true := by
  induction m with
  | nil => rfl
  | cons d m ih =>
    obtain ⟨k, y⟩ := d
    rw [wf_cons] at h
    simp only [Memory.write]
    split_ifs with h1 h2
    · rw [wf_cons, wf_cons]
      refine ⟨?_, h⟩
      rintro c hc
      rcases List.mem_cons.mp hc with rfl | hc
      · exact h1
      · exact h1.trans (h.1 c hc)
    · subst h2
      exact wf_cons.mpr h
    · refine wf_cons.mpr ⟨fun c hc => ?_, ih h.2⟩
      rcases mem_write hc with rfl | hc
      · omega
      · exact h.1 c hc

theorem writeBytes_wf (xs : List Byte) {m : Memory} (a : Nat) (h : m.wf = true) :
    (m.writeBytes a xs).wf = true := by
  induction xs generalizing a m with
  | nil => exact h
  | cons x xs ih => exact ih _ (write_wf a x h)

/-- What `readableBelow` checks: a byte at every index below. -/
theorem readableBelow_iff {m : Memory} {n : Nat} :
    m.readableBelow n = true ↔ ∀ a, a < n → ∃ x, m.read a = some x := by
  induction n with
  | zero => simp [Memory.readableBelow]
  | succ n ih =>
    simp only [Memory.readableBelow, Bool.and_eq_true, ih, Option.isSome_iff_exists]
    refine ⟨fun ⟨hn, h⟩ a ha => ?_, fun h => ⟨h n (by omega), fun a ha => h a (by omega)⟩⟩
    rcases Nat.lt_succ_iff_lt_or_eq.mp ha with ha | rfl
    · exact h a ha
    · exact hn

/-- The duty is kept exactly when a `DECAT`'s buffer length is no larger than the readable buffer. -/
theorem inputKeepsDuty_iff {m : Memory} {x : Input} :
    inputKeepsDuty m x = true ↔
      ∀ start bufLen, decode x = .ok (.decat start bufLen) → m.readableBelow bufLen = true := by
  simp only [inputKeepsDuty]
  cases decode x with
  | error e => simp
  | ok i => cases i <;> simp [keepsDuty]

/-- The windows are those of the pending `DECAT`s, and only they. -/
theorem held_iff {s : State} {a : Nat} :
    s.held a = true ↔ ∃ y ∈ s.pending, ∃ start bufLen, decode y.input = .ok (.decat start bufLen) ∧
      start ≤ a ∧ a < start + 4 ∧ a < bufLen := by
  simp only [State.held, List.any_eq_true, inputHolds]
  refine exists_congr fun y => and_congr_right fun _ => ?_
  cases decode y.input with
  | error e => simp
  | ok i => cases i <;> simp [inWindow]

/-- A host write is no move exactly where it would change a byte that is held. -/
theorem hostWrite_eq_none {s : State} {a : Nat} {x : Byte} :
    s.hostWrite a x = none ↔ s.held a = true ∧ s.bufByte a ≠ some x := by
  simp [State.hostWrite]

/-- Everything a host write that is made can do: one byte of BUF is written, and none in a window of a
pending transaction changes. -/
theorem hostWrite_eq_some {s t : State} {a : Nat} {x : Byte} (h : s.hostWrite a x = some t) :
    t.pending = s.pending ∧ t.answers = s.answers ∧ t.buf = s.buf.write a x ∧
    (∀ b, t.bufByte b = if b = a then some x else s.bufByte b) ∧
    ∀ b, s.held b = true → t.bufByte b = s.bufByte b := by
  unfold State.hostWrite at h
  split_ifs at h with hc
  cases h
  refine ⟨rfl, rfl, rfl, read_write s.buf a x, fun b hb => ?_⟩
  refine (read_write s.buf a x b).trans ?_
  split_ifs with hba
  · subst hba
    by_contra hx
    exact hc ⟨hb, fun he => hx he.symm⟩
  · rfl

theorem hostWrite_wf {s t : State} {a : Nat} {x : Byte} (h : s.hostWrite a x = some t)
    (hs : s.buf.wf = true) : t.buf.wf = true := by
  rw [(hostWrite_eq_some h).2.2.1]
  exact write_wf a x hs

theorem hostWriteBytes_wf {xs : List Byte} {a : Nat} {s t : State}
    (h : s.hostWriteBytes a xs = some t) (hs : s.buf.wf = true) : t.buf.wf = true := by
  induction xs generalizing a s with
  | nil => cases h; exact hs
  | cons x xs ih =>
    simp only [State.hostWriteBytes] at h
    split at h
    · cases h
    · exact ih h (hostWrite_wf ‹_› hs)

/-- After reset BUF has its canonical form. -/
theorem reset_wf : State.reset.buf.wf = true := rfl

/-- `BufRead` answers a byte exactly below the buffer length where the host has provided one (R31). -/
theorem bufRead_ok {s : State} {bufLen a : Nat} {x : Byte} :
    bufRead s bufLen a = .ok x ↔ a < bufLen ∧ s.bufByte a = some x := by
  unfold bufRead
  split_ifs with h
  · cases hb : s.bufByte a <;> simp [h]
  · simp [h]

/-- When `BufRead` gives no byte, it names the index and why. -/
theorem bufRead_error {s : State} {bufLen a : Nat} {f : Fault} :
    bufRead s bufLen a = .error f ↔
      (a < bufLen ∧ s.bufByte a = none ∧ f = .bufByteAbsent a) ∨
      (bufLen ≤ a ∧ f = .bufReadOutside a) := by
  unfold bufRead
  split_ifs with h
  · cases hb : s.bufByte a <;> simp [h, eq_comm]
  · simp [h, eq_comm]
    omega

/-- `MemRead(a, n)` answers exactly the `n` bytes that stand at `a`, `a + 1`, ... below the length. -/
theorem bufReadBytes_ok {s : State} {bufLen a n : Nat} {xs : List Byte} :
    bufReadBytes s bufLen a n = .ok xs ↔
      xs.length = n ∧ ∀ (k : Nat) (x : Byte), xs[k]? = some x →
        a + k < bufLen ∧ s.bufByte (a + k) = some x := by
  induction n generalizing a xs with
  | zero =>
    simp only [bufReadBytes, Except.ok.injEq, List.length_eq_zero_iff]
    constructor
    · rintro rfl
      simp
    · exact fun h => h.1.symm
  | succ n ih =>
    simp only [bufReadBytes]
    constructor
    · intro h
      split at h
      · cases h
      · rename_i x hx
        split at h
        · cases h
        · rename_i ys hys
          cases h
          obtain ⟨hl, hk⟩ := ih.mp hys
          refine ⟨by simp [hl], ?_⟩
          rintro (_ | k) z hz
          · simp only [List.getElem?_cons_zero, Option.some.injEq] at hz
            subst hz
            exact bufRead_ok.mp hx
          · have := hk k z (by simpa using hz)
            rwa [show a + (k + 1) = a + 1 + k by omega]
    · rintro ⟨hl, hk⟩
      cases xs with
      | nil => simp at hl
      | cons y ys =>
        have h0 : bufRead s bufLen a = .ok y := bufRead_ok.mpr (hk 0 y rfl)
        have h1 : bufReadBytes s bufLen (a + 1) n = .ok ys := by
          refine ih.mpr ⟨by simpa using hl, fun k z hz => ?_⟩
          have := hk (k + 1) z (by simpa using hz)
          rwa [show a + 1 + k = a + (k + 1) by omega]
        simp [h0, h1]

/-- When `MemRead(a, n)` fails, it failed at one of its `n` indices. -/
theorem bufReadBytes_error {s : State} {bufLen a n : Nat} {f : Fault}
    (h : bufReadBytes s bufLen a n = .error f) :
    ∃ k, k < n ∧ bufRead s bufLen (a + k) = .error f := by
  induction n generalizing a with
  | zero => simp [bufReadBytes] at h
  | succ n ih =>
    simp only [bufReadBytes] at h
    split at h
    · rename_i g hg
      cases h
      exact ⟨0, by omega, hg⟩
    · split at h
      · rename_i g hg
        cases h
        obtain ⟨k, hk, hr⟩ := ih hg
        exact ⟨k + 1, by omega, by rwa [show a + (k + 1) = a + 1 + k by omega]⟩
      · cases h

end Sys2Proof.Machine
end

