-- ==== Sys2Proof/Laws/Exec.lean ====
section
/-! SUPPORT. What each meaning does, with the constants of the spec as numerals; and that reads of BUF
depend on BUF alone. -/

namespace Sys2Proof.Machine

open Sys2Proof

/-- `ENC` with `MAXV` written out (R70). -/
theorem execEnc_eq (val : Val) (s : State) :
    execEnc val s =
      if val.toInt < 0 then .next (s.raise .negative)
      else if (1077952575 : Int) < val.toInt then .next (s.raise .tooLarge)
      else .next (s.respond (.encoded
        (lengthField (bandLength (bandOfValue val.toInt.toNat))) (packValue val.toInt.toNat))) := rfl

/-- `DEC` with the expected length as a number (R90). -/
theorem execDec_eq (n : Nat) (b0 b1 b2 b3 : Byte) (s : State) :
    execDec n b0 b1 b2 b3 s =
      if n = 0 then .next (s.raise .emptyInput)
      else if b0.toNat / 64 + 1 ≠ n then .next (s.raise .lengthMismatch)
      else .next (s.respond (.value (packedValue b0 ([b1, b2, b3].take (n - 1))))) := by
  simp only [execDec, expectedLength_eq]

theorem bufRead_congr {s t : State} (h : s.buf = t.buf) (bufLen a : Nat) :
    bufRead s bufLen a = bufRead t bufLen a := by
  simp only [bufRead, State.bufByte, h]

theorem bufReadBytes_congr {s t : State} (h : s.buf = t.buf) (bufLen a n : Nat) :
    bufReadBytes s bufLen a n = bufReadBytes t bufLen a n := by
  induction n generalizing a with
  | zero => rfl
  | succ n ih => simp only [bufReadBytes, bufRead_congr h, ih]

/-- A step over a pending transaction, unfolded once: left unspecified, executed or rejected. -/
theorem step_cons (x : Issued) (rest : List Issued) (m : Memory) (as : List Answer) :
    step ⟨x :: rest, m, as⟩ =
      if x.dutyKept = false then .next (State.leaveUnspecified ⟨rest, m, as⟩)
      else
        match decode x.input with
        | .ok i => exec i ⟨rest, m, as⟩
        | .error e => .next (rejectSequence e ⟨rest, m, as⟩) := rfl

/-- A `DECAT` is recorded with its duty kept exactly when it is issued over a BUF of that length. -/
theorem issued_decat {s : State} {x : Input} {start bufLen : Nat}
    (h : decode x = .ok (.decat start bufLen)) :
    (s.issued x).dutyKept = true ↔ BufReadable bufLen s := by
  simp only [issued_dutyKept, inputKeepsDuty, h, keepsDuty]
  exact readableBelow_iff

/-- What `DECAT` tests first is the host's duty about the buffer length (R156). -/
theorem readableBelow_eq_true {s : State} {bufLen : Nat} :
    s.buf.readableBelow bufLen = true ↔ BufReadable bufLen s := readableBelow_iff

/-- Everything `DECAT` can do: it is left unspecified where BUF lacks a byte below the buffer length
(R156), and over a full BUF it is R100: too short without a first byte or past the end, or the value of
the bytes read. It never faults. -/
theorem execDecat_cases (start bufLen : Nat) (s : State) :
    (¬ BufReadable bufLen s ∧ execDecat start bufLen s = .next s.leaveUnspecified) ∨
    (BufReadable bufLen s ∧ bufLen ≤ start ∧
      execDecat start bufLen s = .next (s.raise .bufferTooShort)) ∨
    (∃ first : Byte, BufReadable bufLen s ∧ start < bufLen ∧ s.bufByte start = some first ∧
      bufLen < start + expectedLength first ∧
      execDecat start bufLen s = .next (s.raise .bufferTooShort)) ∨
    (∃ (first : Byte) (rest : List Byte), BufReadable bufLen s ∧ s.bufByte start = some first ∧
      start + expectedLength first ≤ bufLen ∧ rest.length + 1 = expectedLength first ∧
      (∀ (k : Nat) (x : Byte), rest[k]? = some x → s.bufByte (start + 1 + k) = some x) ∧
      execDecat start bufLen s = .next (s.respond (.value (packedValue first rest)))) := by
  by_cases hr : BufReadable bufLen s
  case neg =>
    have := readableBelow_eq_true.not.mpr hr
    exact .inl ⟨hr, by simp [execDecat, this]⟩
  have hread {a : Nat} {f : Fault} (h : bufRead s bufLen a = .error f) : bufLen ≤ a := by
    rcases bufRead_error.mp h with ⟨ha, hn, -⟩ | ⟨ha, -⟩
    · obtain ⟨x, hx⟩ := hr a ha
      simp [hx] at hn
    · exact ha
  right
  unfold execDecat
  rw [if_neg (by simp [readableBelow_eq_true.mpr hr])]
  split_ifs with h0
  · exact .inl ⟨hr, h0, rfl⟩
  right
  cases hb : bufRead s bufLen start with
  | error f => exact absurd (hread hb) h0
  | ok first =>
    have hf := (bufRead_ok.mp hb).2
    have hpos := expectedLength_pos first
    dsimp only
    split_ifs with h1
    · exact .inl ⟨first, hr, by omega, hf, h1, rfl⟩
    right
    cases hs : bufReadBytes s bufLen (start + 1) (expectedLength first - 1) with
    | error f =>
      obtain ⟨k, hk, he⟩ := bufReadBytes_error hs
      have := hread he
      omega
    | ok rest =>
      obtain ⟨hlen, hk⟩ := bufReadBytes_ok.mp hs
      exact ⟨first, rest, hr, hf, by omega, by omega, fun k x hx => (hk k x hx).2, rfl⟩

end Sys2Proof.Machine
end

