-- ==== Sys2Proof/Laws/PerInstr.lean ====
section
/-! SUPPORT. Facts about instructions as syntax, one lemma per constructor. -/

namespace Sys2Proof

/-- The least width of a length or index field is 3 bits (R5), so it holds every length up to 7. -/
theorem fitsIndex_of_lt_eight {k : Nat} (h : k < 8) : fitsIndex k :=
  h.trans_le (Nat.pow_le_pow_right (n := 2) (by omega) (Nat.le_add_right 3 Config.idxwExcess))

theorem fitsIndex_zero : fitsIndex 0 := fitsIndex_of_lt_eight (by decide)

/-- The encoder puts a well-formed instruction's operands into fields that hold them (R12). -/
def Laws.EncodeFits.Statement (i : Instr) : Prop := i.wellFormed → (encode i).wellFormed

theorem Laws.EncodeFits.enc (val : Val) : Laws.EncodeFits.Statement (.enc val) :=
  fun _ => ⟨fitsIndex_zero, fitsIndex_zero, fitsIndex_zero⟩

theorem Laws.EncodeFits.len (b0 : Byte) : Laws.EncodeFits.Statement (.len b0) :=
  fun _ => ⟨fitsIndex_zero, fitsIndex_zero, fitsIndex_zero⟩

theorem Laws.EncodeFits.dec (n : Nat) (b0 b1 b2 b3 : Byte) :
    Laws.EncodeFits.Statement (.dec n b0 b1 b2 b3) :=
  fun h => ⟨h, fitsIndex_zero, fitsIndex_zero⟩

theorem Laws.EncodeFits.decat (start bufLen : Nat) :
    Laws.EncodeFits.Statement (.decat start bufLen) :=
  fun h => ⟨fitsIndex_zero, h.1, h.2⟩

theorem Laws.EncodeFits.pv1 (o : BitVec 6) : Laws.EncodeFits.Statement (.pv1 o) :=
  fun _ => fitsIndex_of_lt_eight (show 1 < 8 by decide)

theorem Laws.EncodeFits.pv2 (o : BitVec 14) : Laws.EncodeFits.Statement (.pv2 o) :=
  fun _ => fitsIndex_of_lt_eight (show 2 < 8 by decide)

theorem Laws.EncodeFits.pv3 (o : BitVec 22) : Laws.EncodeFits.Statement (.pv3 o) :=
  fun _ => fitsIndex_of_lt_eight (show 3 < 8 by decide)

theorem Laws.EncodeFits.pv4 (o : BitVec 30) : Laws.EncodeFits.Statement (.pv4 o) :=
  fun _ => fitsIndex_of_lt_eight (show 4 < 8 by decide)

end Sys2Proof
end

