-- ==== Sys2Proof/Tests/Slice0.lean ====
section
/-! SUPPORT. The model's own tests: ill-formed terms refused, words decoded, vectors of
spec/95_test_vectors.md, and for each statement with hypotheses a state and operands that meet them. -/

namespace Sys2Proof.Tests

open Sys2Proof Sys2Proof.Machine

/-! ### WellFormed: each check refuses an ill-formed term -/

theorem not_fitsIndex : ¬ fitsIndex (2 ^ Config.IDXW) := Nat.lt_irrefl _

theorem test_dec_length_too_wide : ¬ (Instr.dec (2 ^ Config.IDXW) 0 0 0 0).wellFormed :=
  not_fitsIndex

theorem test_decat_start_too_wide : ¬ (Instr.decat (2 ^ Config.IDXW) 1).wellFormed :=
  fun h => not_fitsIndex h.1

theorem test_decat_bufLen_too_wide : ¬ (Instr.decat 0 (2 ^ Config.IDXW)).wellFormed :=
  fun h => not_fitsIndex h.2

theorem test_request_length_too_wide :
    ¬ ({ blankRequest with n := 2 ^ Config.IDXW } : Request).wellFormed := fun h => not_fitsIndex h.1

theorem test_request_start_too_wide :
    ¬ ({ blankRequest with start := 2 ^ Config.IDXW } : Request).wellFormed :=
  fun h => not_fitsIndex h.2.1

theorem test_request_bufLen_too_wide :
    ¬ ({ blankRequest with bufLen := 2 ^ Config.IDXW } : Request).wellFormed :=
  fun h => not_fitsIndex h.2.2

theorem test_sequence_too_long :
    ¬ (Input.sequence (List.replicate (2 ^ Config.IDXW) 0)).wellFormed := by
  intro h
  rw [Input.wellFormed, List.length_replicate] at h
  exact not_fitsIndex h

theorem test_decat_fits : (Instr.decat 7 7).wellFormed :=
  ⟨fitsIndex_of_lt_eight (by decide), fitsIndex_of_lt_eight (by decide)⟩

/-! ### Decode: words written out from R60 and R53 -/

theorem test_decode_enc : decode (.request ⟨0b00, 0xFFFFFFFF, 1, 2, 3, 4, 5, 6, 7⟩) =
    .ok (.enc (-1)) := by decide

theorem test_decode_len : decode (.request ⟨0b01, 9, 0x9A, 2, 3, 4, 5, 6, 7⟩) =
    .ok (.len 0x9A) := by decide

theorem test_decode_dec : decode (.request ⟨0b10, 9, 0x80, 0xD1, 0x30, 4, 3, 6, 7⟩) =
    .ok (.dec 3 0x80 0xD1 0x30 4) := by decide

theorem test_decode_decat : decode (.request ⟨0b11, 9, 1, 2, 3, 4, 5, 6, 7⟩) =
    .ok (.decat 6 7) := by decide

theorem test_decode_pv1 : decode (.sequence [0b00100001]) = .ok (.pv1 0b100001) := by decide

theorem test_decode_pv2 : decode (.sequence [0b01101111, 0b11111001]) = .ok (.pv2 0x2FF9) := by
  decide

theorem test_decode_pv3 : decode (.sequence [0b10001111, 0b00000010, 0b00000000]) =
    .ok (.pv3 0x0F0200) := by decide

theorem test_decode_pv4 : decode (.sequence [0b11010001, 0b11110100, 0b00010110, 0b00111000]) =
    .ok (.pv4 0x11F41638) := by decide

theorem test_decode_empty : decode (.sequence []) = .error .emptySequence := by decide

theorem test_decode_short : decode (.sequence [0x40]) = .error .lengthMismatch := by decide

theorem test_decode_long : decode (.sequence [0xC0, 0, 0, 0, 0]) = .error .lengthMismatch := by
  decide

theorem test_table_words :
    [0, 1, 2, 3, 4, 0x40, 0x80, 0xC0].map (decodeTableWord 8) =
      [some (.enc 0), some (.len 0), some (.dec 0 0 0 0 0), some (.decat 0 0), some (.pv1 4),
        some (.pv2 0), some (.pv3 0), some (.pv4 0)] := by decide

theorem test_table_word_of_four_bytes :
    decodeTableWord 32 0x785634D2 = some (.pv4 0x12345678) := by decide

/-! ### Vectors of spec/95_test_vectors.md -/

/-- The state with `BUF8` of section 2.4 provided. -/
def buf8 : State :=
  { State.reset with
    buf := Memory.writeBytes [] 0 [0xAA, 0x40, 0xEC, 0x05, 0x80, 0x00, 0x01, 0xC0] }

/-- The state after reset with one response delivered. -/
def answered (r : Response) : State := { State.reset with answers := [.response r] }

theorem test_enc_top_of_band2 : exec (.enc 4210751) .reset =
    .next (answered (.encoded 3 [0xBF, 0xFF, 0xFF])) := rfl

theorem test_enc_misprinted_limit : exec (.enc 1077936128) .reset =
    .next (answered (.encoded 4 [0xFF, 0xFF, 0xBF, 0xC0])) := rfl

theorem test_len : exec (.len 0x9A) .reset = .next (answered (.length 3)) := rfl

theorem test_dec_junk_lanes : exec (.dec 1 0x05 0xFF 0xFF 0xFF) .reset =
    .next (answered (.value 5)) := rfl

theorem test_dec_nine_bytes : exec (.dec 9 0x01 0x02 0x03 0x04) .reset =
    .next (answered (.error .lengthMismatch)) := rfl

theorem test_decat_four_bytes : exec (.decat 2 8) buf8 =
    .next { buf8 with answers := [.response (.value 742768704)] } := rfl

theorem test_decat_ends_at_the_end : exec (.decat 4 7) buf8 =
    .next { buf8 with answers := [.response (.value 16449)] } := rfl

theorem test_pv1 : exec (.pv1 63) .reset = .next (answered (.value 63)) := rfl

theorem test_pv2 : exec (.pv2 0x2FF9) .reset = .next (answered (.value 12345)) := rfl

theorem test_pv3 : exec (.pv3 0xD130) .reset = .next (answered (.value 70000)) := rfl

theorem test_pv4 : exec (.pv4 0x3FFFFFFF) .reset = .next (answered (.value 1077952575)) := rfl

theorem test_step_from_reset : step (State.reset.withFetchWord 8 0b10) =
    .next (answered (.error .emptyInput)) := rfl

theorem test_step_of_a_packed_value : step (State.reset.withFetchWord 16 0xEC40) =
    .next (answered (.value 300)) := rfl

theorem test_host_writes_in_any_order :
    (((State.reset.hostWrite 5 1).bind (State.hostWrite 2 7)).bind (State.hostWrite 5 9)) =
      some ⟨[], [(2, 7), (5, 9)], []⟩ := by decide

theorem test_host_provides_the_buffer :
    State.reset.hostWriteBytes 0 [0xAA, 0x40, 0xEC, 0x05, 0x80, 0x00, 0x01, 0xC0] = some buf8 := by
  decide

/-- R38 (a), (c): in the window of a pending `DECAT` no byte can change (the same byte can be written),
beside it any can. -/
theorem test_host_write_around_a_pending_window :
    (buf8.issue (encode (.decat 1 4))).hostWrite 3 9 = none ∧
    (buf8.issue (encode (.decat 1 4))).hostWrite 3 5 = some (buf8.issue (encode (.decat 1 4))) ∧
    ((buf8.issue (encode (.decat 1 4))).hostWrite 0 9).isSome = true ∧
    ((buf8.issue (encode (.decat 1 4))).hostWrite 4 9).isSome = true ∧
    ((buf8.issue (encode (.decat 1 8))).hostWrite 4 9) = none ∧
    ((buf8.issue (encode (.decat 1 8))).hostWrite 5 9).isSome = true := by decide

/-- R156: a `req.buf_len` above the readable buffer, whether or not an absent byte is needed. -/
theorem test_decat_over_a_buffer_cut_short :
    exec (.decat 7 11) buf8 = .next { buf8 with answers := [.unspecified] } ∧
    exec (.decat 6 9) buf8 = .next { buf8 with answers := [.unspecified] } := ⟨rfl, rfl⟩

/-- R151, R156: bytes provided after the issue mend no duty broken at it. -/
theorem test_late_bytes_do_not_count :
    ((((State.reset.hostWriteBytes 0 [0xAA, 0x40, 0xEC, 0x05]).map
      (State.issue (encode (.decat 0 8)))).bind
      (State.hostWriteBytes 4 [0x80, 0x00, 0x01, 0xC0])).map step) =
      some (.next { buf8 with answers := [.unspecified] }) := rfl

/-- R24, R158: what is pending behind a transaction without meaning is answered. -/
theorem test_answers_go_on_behind_an_unspecified_one :
    Host.Core.run Sys2Proof.core 2 ((buf8.issue (encode (.decat 7 11))).issue (encode (.enc 5))) =
      .next { buf8 with answers := [.unspecified, .response (.encoded 1 [5])] } := rfl

theorem buf8_readable {n : Nat} (h : n ≤ 8) : BufReadable n buf8 :=
  fun a ha => readableBelow_eq_true.mp (show buf8.buf.readableBelow 8 = true from rfl) a (by omega)

/-! ### The hypotheses of the statements can be met -/

theorem isPacked_example : IsPacked [0x40, 0xEC] := ⟨0x40, [0xEC], rfl, rfl⟩

theorem inLanes_example : InLanes [0x40, 0xEC] 0x40 0xEC 0 0 := by
  rintro (_ | _ | k) x h <;> simp_all

theorem inBuf_example : InBuf [0x40, 0xEC] 1 buf8 := by
  rintro (_ | _ | k) x h
  · cases h; rfl
  · cases h; rfl
  · simp at h

theorem witness_EncodeOfDecodedSequenceIsTheSequence :
    decode (.sequence [0x40, 0xEC]) = .ok (.pv2 236) := by decide

theorem witness_RequestDecodesByItsOperationCode :
    ({ blankRequest with op := 0 } : Request).op = 0b00#2 ∧
    ({ blankRequest with op := 1 } : Request).op = 0b01#2 ∧
    ({ blankRequest with op := 2 } : Request).op = 0b10#2 ∧
    ({ blankRequest with op := 3 } : Request).op = 0b11#2 := by decide

theorem witness_ConcatenatedPackedValuesSplitInOneWay :
    (IsPacked [0x40, 0xEC] ∧ ([0x40, 0xEC] : List Byte) <+: [0x40, 0xEC]) ∧
    (∀ p ∈ [[0x40, 0xEC], ([0x40, 0xEC] : List Byte)], IsPacked p) ∧
    [[0x40, 0xEC], ([0x40, 0xEC] : List Byte)].flatten = [0x40, 0xEC, 0x40, 0xEC] := by
  refine ⟨⟨isPacked_example, List.prefix_refl _⟩, ?_, rfl⟩
  intro p hp
  simp only [List.mem_cons, List.not_mem_nil, or_false, or_self] at hp
  exact hp ▸ isPacked_example

theorem witness_BandOfValueIsTheUniqueBand :
    maxValue ≤ maxValue ∧ bandOfValue maxValue = .band3 ∧ bandOfValue 0x40403F = .band2 ∧
    bandOfValue 0x4040 = .band2 ∧ bandOfValue 0x403F = .band1 ∧ bandOfValue 0x40 = .band1 ∧
    bandOfValue 0x3F = .band0 := by decide

theorem witness_EncAnswersEveryInput :
    (-1 : Val).toInt < 0 ∧ 0x4040403F < (0x40404040 : Val).toInt ∧
    ((0x3F : Val).toInt = ((0x3F : Nat) : Int) ∧ 0x3F < 0x40) ∧
    ((0x403F : Val).toInt = ((0x3FFF : Nat) + 0x40 : Int) ∧ 0x3FFF < 2 ^ 14) ∧
    ((0x40403F : Val).toInt = ((0x3FFFFF : Nat) + 0x4040 : Int) ∧ 0x3FFFFF < 2 ^ 22) ∧
    ((0x4040403F : Val).toInt = ((0x3FFFFFFF : Nat) + 0x404040 : Int) ∧ 0x3FFFFFFF < 2 ^ 30) := by
  decide

theorem witness_EncFailsNegativeExactlyWhenBit31IsSet :
    (0x80000000 : Val).toInt < 0 ∧ (-1 : Val).toInt < 0 ∧ ¬ (0x7FFFFFFF : Val).toInt < 0 := by
  decide

theorem witness_LenOfFirstByteIsTheEncodedLength :
    exec (.enc 300) buf8 =
      .next { buf8 with answers := buf8.answers ++ [.response (.encoded 2 [0x40, 0xEC])] } := rfl

theorem witness_DecOfEncIsTheValue :
    0 ≤ (300 : Val).toInt ∧ (300 : Val).toInt ≤ 1077952575 ∧
    (1077952575 : Val).toInt ≤ 1077952575 ∧ InLanes [0x40, 0xEC] 0x40 0xEC 0 0 :=
  ⟨by decide, by decide, by decide, inLanes_example⟩

theorem witness_EncOfDecIsTheSequence :
    exec (.dec 2 0x40 0xEC 1 2) buf8 =
      .next { buf8 with answers := buf8.answers ++ [.response (.value 300)] } ∧
    exec (.enc 300) .reset =
      .next { State.reset with answers := State.reset.answers ++ [.response (.encoded 2 [0x40, 0xEC])] } ∧
    exec (.dec 2 0x40 0xEC 3 4) .reset =
      .next { State.reset with answers := State.reset.answers ++ [.response (.value 300)] } ∧
    IsPacked [0x40, 0xEC] ∧ InLanes [0x40, 0xEC] 0x40 0xEC 0 0 :=
  ⟨rfl, rfl, rfl, isPacked_example, inLanes_example⟩

theorem witness_EncodingsAreOrderedAsTheValues :
    0 ≤ (0x3F : Val).toInt ∧ (0x3F : Val).toInt < (0x40 : Val).toInt ∧
    (0x40 : Val).toInt ≤ 1077952575 := by decide

theorem witness_LenAnswersTagPlusOne :
    (0x3F : Byte).toNat ≤ 0x3F ∧ (0x40 ≤ (0x40 : Byte).toNat ∧ (0x7F : Byte).toNat ≤ 0x7F) ∧
    (0x80 ≤ (0x80 : Byte).toNat ∧ (0xBF : Byte).toNat ≤ 0xBF) ∧ 0xC0 ≤ (0xC0 : Byte).toNat ∧
    (0x9A : Byte).extractLsb' 6 2 = (0x80 : Byte).extractLsb' 6 2 := by decide

theorem witness_PresentedSequenceIsAnsweredAsDecAnswersIt :
    ({ blankRequest with op := 2, n := 2, b0 := 0x40, b1 := 0xEC } : Request).op = 0b10#2 ∧
    ({ blankRequest with op := 2, n := 2, b0 := 0x40, b1 := 0xEC } : Request).n =
      ([0x40, 0xEC] : List Byte).length ∧
    ∀ k, k < 4 → k < 2 → ([0x40, 0xEC, 0, 0] : List Byte)[k]? = ([0x40, 0xEC] : List Byte)[k]? := by
  refine ⟨rfl, rfl, ?_⟩
  rintro (_ | _ | k) _ h
  · rfl
  · rfl
  · omega

theorem witness_DecAnswersEveryInput :
    (0x40 : Byte).toNat / 64 + 1 ≠ 1 ∧ (0x3F : Byte).toNat / 64 = 0 ∧ (0x7F : Byte).toNat / 64 = 1 ∧
    (0xBF : Byte).toNat / 64 = 2 ∧ (0xFF : Byte).toNat / 64 = 3 := by decide

theorem witness_DecIgnoresWhatTheSequenceDoesNotHold :
    4 < 5 ∧
    (∀ k, k < 1 → ([5, 1, 2, 3] : List Byte)[k]? = ([5, 4, 5, 6] : List Byte)[k]?) ∧
    exec (.dec 1 0x40 0 0 0) buf8 =
      .next { buf8 with answers := buf8.answers ++ [.response (.error .lengthMismatch)] } ∧
    (0x40 : Byte).extractLsb' 6 2 = (0x7F : Byte).extractLsb' 6 2 :=
  ⟨by decide, by decide, rfl, by decide⟩

theorem witness_DecatAnswersEveryInput :
    (¬ BufReadable 9 buf8 ∧ ∀ n, n ≤ 8 → BufReadable n buf8) ∧
    8 ≤ 8 ∧ (7 < 8 ∧ buf8.bufByte 7 = some 0xC0 ∧ 8 < 7 + ((0xC0 : Byte).toNat / 64 + 1)) ∧
    (buf8.bufByte 6 = some 0x01 ∧ (0x01 : Byte).toNat / 64 = 0 ∧ 6 + 1 ≤ 7) ∧
    (buf8.bufByte 1 = some 0x40 ∧ buf8.bufByte (1 + 1) = some 0xEC ∧ (0x40 : Byte).toNat / 64 = 1 ∧
      1 + 2 ≤ 3) ∧
    (buf8.bufByte 4 = some 0x80 ∧ buf8.bufByte (4 + 1) = some 0 ∧ buf8.bufByte (4 + 2) = some 1 ∧
      (0x80 : Byte).toNat / 64 = 2 ∧ 4 + 3 ≤ 7) ∧
    (buf8.bufByte 2 = some 0xEC ∧ buf8.bufByte (2 + 1) = some 5 ∧
      buf8.bufByte (2 + 2) = some 0x80 ∧ buf8.bufByte (2 + 3) = some 0 ∧
      (0xEC : Byte).toNat / 64 = 3 ∧ 2 + 4 ≤ 6) :=
  ⟨⟨mt readableBelow_eq_true.mpr (by decide), fun _ => buf8_readable⟩, by decide⟩

theorem witness_DecatPastTheEndReadsNothing :
    8 ≤ 8 ∧ BufReadable 8 { State.reset with buf := buf8.buf } := ⟨by decide, buf8_readable le_rfl⟩

theorem witness_DecatFailsExactlyWhenTheValueRunsOffTheEnd :
    (BufReadable 8 buf8 ∧ 7 < 8 ∧ buf8.bufByte 7 = some 0xC0) ∧
    (BufReadable 7 buf8 ∧ 4 < 7 ∧ buf8.bufByte 4 = some 0x80 ∧
      4 + (((0x80 : Byte).extractLsb' 6 2).toNat + 1) ≤ 7) :=
  ⟨⟨buf8_readable le_rfl, by decide⟩, buf8_readable (by decide), by decide⟩

/-- `buf8` with the byte behind the packed value at index 1 changed. -/
def buf8' : State := { buf8 with buf := buf8.buf.write 3 9 }

theorem witness_DecatDependsOnItsPackedValueOnly :
    BufReadable 8 buf8' ∧ (1 < 8 → buf8'.bufByte 1 = buf8.bufByte 1) ∧
    (∀ first : Byte, buf8.bufByte 1 = some first → 1 + (first.toNat / 64 + 1) ≤ 8 →
      ∀ a, 1 ≤ a → a < 1 + (first.toNat / 64 + 1) → buf8'.bufByte a = buf8.bufByte a) ∧
    exec (.decat 1 8) buf8 =
      .next { buf8 with answers := buf8.answers ++ [.response (.value 300)] } := by
  refine ⟨readableBelow_eq_true.mp rfl, fun _ => by decide, ?_, rfl⟩
  rintro first h1 - a ha ha'
  cases h1
  rw [show 1 + ((0x40 : Byte).toNat / 64 + 1) = 3 from rfl] at ha'
  interval_cases a <;> decide

theorem witness_DecatIsDecOnItsSubrange :
    (BufReadable 8 buf8 ∧ IsPacked [0x40, 0xEC] ∧ InBuf [0x40, 0xEC] 1 buf8 ∧
      InLanes [0x40, 0xEC] 0x40 0xEC 0 0 ∧ 1 + ([0x40, 0xEC] : List Byte).length ≤ 8) ∧
    (InBuf [0x40] 0 { State.reset with buf := [(0, 0x40)] } ∧
      ([0x40] : List Byte).length < (0x40 : Byte).toNat / 64 + 1) ∧
    (InBuf [0x05, 0x05] 0 { State.reset with buf := [(0, 0x05), (1, 0x05)] } ∧
      (0x05 : Byte).toNat / 64 + 1 < ([0x05, 0x05] : List Byte).length) := by
  refine ⟨⟨buf8_readable le_rfl, isPacked_example, inBuf_example, inLanes_example, by decide⟩,
    ⟨?_, by decide⟩, ?_, by decide⟩
  · rintro (_ | k) x h
    · cases h; rfl
    · simp at h
  · rintro (_ | _ | k) x h
    · cases h; rfl
    · cases h; rfl
    · simp at h

theorem witness_EmbeddedEncodingIsDecodedInPlace :
    0 ≤ (300 : Val).toInt ∧ (300 : Val).toInt ≤ 1077952575 ∧
    exec (.enc 300) .reset = .next (answered (.encoded 2 [0x40, 0xEC])) ∧
    InBuf ([0xAA] ++ [0x40, 0xEC] ++ [0x05]) 0 buf8 := by
  refine ⟨by decide, by decide, rfl, ?_⟩
  rintro (_ | _ | _ | _ | k) x h
  · cases h; rfl
  · cases h; rfl
  · cases h; rfl
  · cases h; rfl
  · simp at h

theorem witness_DecatAnswersNoErrorOfDec :
    exec (.decat 7 8) buf8 =
      .next { buf8 with answers := buf8.answers ++ [.response (.error .bufferTooShort)] } := rfl

theorem witness_ErrorsLeaveNothingBehind :
    exec (.enc (-1)) .reset = .next (answered (.error .negative)) ∧
    (answered (.error .negative)).answers =
      State.reset.answers ++ [.response (.error .negative)] :=
  ⟨rfl, rfl⟩

theorem witness_StepRunsTheDecodedInstruction :
    (State.reset.issue (.sequence [0x05])).pending = ⟨.sequence [0x05], true⟩ :: [] ∧
    decode (.sequence [0x05]) = .ok (.pv1 5) := by decide

theorem witness_StepWithNothingPendingChangesNothing : buf8.pending = [] := rfl

theorem witness_ExecDeliversOneAnswerAndChangesNothingElse :
    exec (.decat 1 8) buf8 = .next { buf8 with answers := [.response (.value 300)] } := rfl

theorem witness_StepAnswersOneTransactionAndWritesNoMemory :
    (buf8.issue (encode (.decat 1 8))).pending = ⟨encode (.decat 1 8), true⟩ :: [] ∧
    step (buf8.issue (encode (.decat 1 8))) = .next { buf8 with answers := [.response (.value 300)] } :=
  ⟨rfl, rfl⟩

/-- A transaction without meaning may be among them. -/
theorem witness_OrderOfTransactionsIsNotObservable :
    ((buf8.issue (encode (.decat 7 11))).issue (.sequence [])).pending.Perm
      [⟨.sequence [], true⟩, ⟨encode (.decat 7 11), false⟩] := by decide

/-- For `RunAnswersEveryTransactionAsIfItWereAlone`: the second of two, behind one without meaning. -/
theorem witness_RunAnswersEveryTransactionAsIfItWereAlone :
    ((buf8.issue (encode (.decat 7 11))).issue (encode (.enc 5))).pending[1]? =
      some ⟨encode (.enc 5), true⟩ := rfl

/-- The window of `DECAT 1 4` is the indices 1 to 3: none past either end. -/
theorem witness_HostWriteIsNoMoveExactlyInAPendingWindow :
    (buf8.bufByte 3 ≠ some 9 ∧ decode (encode (.decat 1 4)) = .ok (.decat 1 4) ∧
      1 ≤ 3 ∧ 3 < 1 + 4 ∧ 3 < 4) ∧
    (buf8.issue (encode (.decat 1 4))).hostWrite 4 9 =
      some { buf8.issue (encode (.decat 1 4)) with buf := buf8.buf.write 4 9 } :=
  ⟨by decide, rfl⟩

theorem witness_HostWritesKeepTheResponsesOfPendingTransactions :
    (buf8.issue (encode (.decat 1 4))).hostWrite 4 9 =
      some { buf8.issue (encode (.decat 1 4)) with buf := buf8.buf.write 4 9 } ∧
    ⟨encode (.decat 1 4), true⟩ ∈ (buf8.issue (encode (.decat 1 4))).pending ∧
    step { pending := [⟨encode (.decat 1 4), true⟩], buf := buf8.buf, answers := [] } =
      .next { pending := [], buf := buf8.buf, answers := [.response (.value 300)] } ∧
    DutiesRecorded (buf8.issue (encode (.decat 1 4))) := by
  refine ⟨rfl, List.mem_singleton.mpr rfl, rfl, ?_⟩
  intro x hx _ start bufLen h
  cases List.mem_singleton.mp hx
  cases h
  exact buf8_readable (by decide)

/-- `buf8` as it is before the host has provided the bytes at 4 to 7. -/
def buf4 : State := { State.reset with buf := buf8.buf.take 4 }

theorem witness_DutyIsJudgedWhenTheRequestIsIssued :
    (buf4.issue (encode (.decat 0 8))).pending = buf4.issued (encode (.decat 0 8)) :: [] ∧
    decode (encode (.decat 0 8)) = .ok (.decat 0 8) ∧ ¬ BufReadable 8 buf4 ∧ BufReadable 8 buf8 :=
  ⟨rfl, rfl, mt readableBelow_eq_true.mpr (by decide), buf8_readable le_rfl⟩

theorem witness_PresentedTransactionIsExecuted :
    decode (.request ⟨0b11, 0, 0, 0, 0, 0, 0, 1, 8⟩) = .ok (.decat 1 8) := rfl

theorem witness_StepKeepsTheInvariant :
    Invariant (State.reset.issue (.sequence [0x05])) ∧
    step (State.reset.issue (.sequence [0x05])) = .next (answered (.value 5)) := by
  refine ⟨⟨rfl, ?_, ?_, ?_, ?_⟩, rfl⟩
  · intro c hc
    cases hc
  · intro x hx
    cases List.mem_singleton.mp hx
    exact fitsIndex_of_lt_eight (by decide)
  · intro x hx _ start bufLen h
    cases List.mem_singleton.mp hx
    cases h
  · intro r hr
    cases hr

theorem witness_HostActsKeepTheInvariant :
    Invariant (State.reset.issue (.sequence [0x05])) ∧ (Input.sequence [0x05]).wellFormed ∧
    6 + 1 < 2 ^ Config.IDXW ∧ (State.reset.issue (.sequence [0x05])).hostWrite 6 9 =
      some { State.reset.issue (.sequence [0x05]) with buf := [(6, 9)] } :=
  ⟨witness_StepKeepsTheInvariant.1, fitsIndex_of_lt_eight (by decide),
    fitsIndex_of_lt_eight (by decide), rfl⟩

end Sys2Proof.Tests
end

/-! Well-formed packed values: the bytes that `ENC` answers are one (R53, R57), and its value is at
most `MAXV` (R55). -/

namespace Sys2Proof.Machine

/-- An offset that fits its band's bits has a value up to `MAXV`, without wrap (R55, R118). -/
theorem bandValue_le_maxValue {b : Band} {o : Nat} (h : o < 2 ^ bandOffsetBits b) :
    (bandValue b o).toNat ≤ maxValue := by
  rw [bandValue, BitVec.toNat_ofNat]
  refine (Nat.mod_le _ _).trans ?_
  cases b <;> simp only [bandOffsetBits, bandIndex, bandBase, maxValue] at h ⊢ <;> omega

/-- The bytes of a packed value hold exactly its band's offset bits (R53, R54). -/
theorem offsetOf_lt {first : Byte} {rest : List Byte} (h : IsPacked (first :: rest)) :
    offsetOf (first :: rest) < 2 ^ bandOffsetBits (bandOfByte first) := by
  obtain ⟨s0, hp, ht⟩ | ⟨s0, s1, hp, ht⟩ | ⟨s0, s1, s2, hp, ht⟩ | ⟨s0, s1, s2, s3, hp, ht⟩ :=
    isPacked_cases h <;> cases hp
  · rw [bandOfByte_eq (c := .band0) ht, offsetOf_one]
    change _ < 2 ^ 6
    omega
  · rw [bandOfByte_eq (c := .band1) ht, offsetOf_two]
    change _ < 2 ^ 14
    omega
  · rw [bandOfByte_eq (c := .band2) ht, offsetOf_three]
    change _ < 2 ^ 22
    omega
  · rw [bandOfByte_eq (c := .band3) ht, offsetOf_four]
    change _ < 2 ^ 30
    omega

theorem packedValue_le_maxValue {first : Byte} {rest : List Byte}
    (h : rest.length + 1 = expectedLength first) : (packedValue first rest).toNat ≤ maxValue :=
  bandValue_le_maxValue (offsetOf_lt ⟨first, rest, rfl, h⟩)

theorem packValue_length (v : Nat) : (packValue v).length = bandLength (bandOfValue v) := by
  simp [packValue, bandLength]

/-- `rsp.len` has room for the length of every band (R13, R51). -/
theorem lengthField_toNat {k : Nat} (h : k ≤ maxLength) : (lengthField k).toNat = k := by
  rw [lengthField, BitVec.toNat_ofNat]
  exact Nat.mod_eq_of_lt (by simp only [maxLength] at h; omega)

theorem bandLength_le_maxLength (b : Band) : bandLength b ≤ maxLength := by
  cases b <;> decide

/-- A packed value from the number of its first byte and the count of the others (R57). -/
theorem isPacked_ofNat_cons {n : Nat} {rest : List Byte} (hn : n < 256)
    (hrest : rest.length = n / 64) : IsPacked (BitVec.ofNat 8 n :: rest) := by
  refine ⟨_, rest, rfl, ?_⟩
  rw [expectedLength_eq, BitVec.toNat_ofNat, Nat.mod_eq_of_lt hn, List.length_cons, hrest]

/-- The bytes of a value of the domain are a well-formed packed value (R56, R57). -/
theorem packValue_isPacked {v : Nat} (h : v ≤ maxValue) : IsPacked (packValue v) := by
  change v ≤ 0x4040403F at h
  by_cases h0 : v < 0x40
  · rw [packValue_band0 h0]
    exact isPacked_ofNat_cons (by omega) (by change 0 = _; omega)
  by_cases h1 : v < 0x4040
  · rw [packValue_band1 (by omega) h1]
    exact isPacked_ofNat_cons (by omega) (by change 1 = _; omega)
  by_cases h2 : v < 0x404040
  · rw [packValue_band2 (by omega) h2]
    exact isPacked_ofNat_cons (by omega) (by change 2 = _; omega)
  · rw [packValue_band3 (by omega) (by omega)]
    exact isPacked_ofNat_cons (by omega) (by change 3 = _; omega)

end Sys2Proof.Machine

/-! What an instruction delivers: one answer within R13's ranges, which BUF and the operands determine
(R10, R117). Every other proof about `exec` goes through these lemmas. -/

namespace Sys2Proof.Machine

/-- An answer is legal when the response in it, if it has one, is within the ranges of R13. -/
def Answer.legal : Answer → Prop
  | .response r => r.legal
  | .unspecified => True

/-- In every state with this BUF, the instruction completes, delivers this answer and changes nothing
else. -/
def Delivers (i : Instr) (m : Memory) (x : Answer) : Prop :=
  ∀ s : State, s.buf = m → exec i s = .next (s.answer x)

theorem enc_delivers (val : Val) (m : Memory) : ∃ x : Answer, x.legal ∧ Delivers (.enc val) m x := by
  by_cases hneg : val.toInt < 0
  · exact ⟨.response (.error .negative), trivial, fun s _ => if_pos hneg⟩
  by_cases hlarge : val.toInt > maxValue
  · exact ⟨.response (.error .tooLarge), trivial, fun s _ => (if_neg hneg).trans (if_pos hlarge)⟩
  refine ⟨.response (.encoded _ _), ⟨packValue_isPacked (v := val.toInt.toNat) (by omega), ?_⟩,
    fun s _ => (if_neg hneg).trans (if_neg hlarge)⟩
  rw [lengthField_toNat (bandLength_le_maxLength _), packValue_length]

theorem len_delivers (b0 : Byte) (m : Memory) : ∃ x : Answer, x.legal ∧ Delivers (.len b0) m x := by
  refine ⟨.response (.length (lengthField (expectedLength b0))), ?_, fun s _ => rfl⟩
  have hle : expectedLength b0 ≤ maxLength := expectedLength_le b0
  simp only [Answer.legal, Response.legal, lengthField_toNat hle]
  exact ⟨expectedLength_pos b0, hle⟩

theorem dec_delivers (n : Nat) (b0 b1 b2 b3 : Byte) (m : Memory) :
    ∃ x : Answer, x.legal ∧ Delivers (.dec n b0 b1 b2 b3) m x := by
  by_cases hempty : n = 0
  · exact ⟨.response (.error .emptyInput), trivial, fun s _ => if_pos hempty⟩
  by_cases hlen : expectedLength b0 ≠ n
  · exact ⟨.response (.error .lengthMismatch), trivial,
      fun s _ => (if_neg hempty).trans (if_pos hlen)⟩
  refine ⟨.response (.value _), packedValue_le_maxValue ?_,
    fun s _ => (if_neg hempty).trans (if_neg hlen)⟩
  have hle := expectedLength_le b0
  simp only [List.length_take, List.length_cons, List.length_nil]
  omega

/-- What `DECAT` delivers depends on the state through BUF only. -/
theorem execDecat_congr {s t : State} (h : s.buf = t.buf) {start bufLen : Nat} {x : Answer}
    (hs : execDecat start bufLen s = .next (s.answer x)) :
    execDecat start bufLen t = .next (t.answer x) := by
  have same {y : Answer}
      (hy : (.next (s.answer y) : Host.Outcome State Fault Refusal) = .next (s.answer x)) :
      (.next (t.answer y) : Host.Outcome State Fault Refusal) = .next (t.answer x) := by
    rw [answer_inj (Host.Outcome.next.inj hy)]
  simp only [execDecat, h, bufRead_congr h, bufReadBytes_congr h] at hs ⊢
  split_ifs at hs ⊢ with hduty hend
  · exact same hs
  · exact same hs
  cases hfirst : bufRead t bufLen start with
  | error f => simp [hfirst] at hs
  | ok first =>
    simp only [hfirst] at hs ⊢
    split_ifs at hs ⊢ with hshort
    · exact same hs
    cases hrest : bufReadBytes t bufLen (start + 1) (expectedLength first - 1) with
    | error f => simp [hrest] at hs
    | ok rest =>
      simp only [hrest] at hs ⊢
      exact same hs

theorem decat_delivers (start bufLen : Nat) (m : Memory) :
    ∃ x : Answer, x.legal ∧ Delivers (.decat start bufLen) m x := by
  suffices ∃ x : Answer, x.legal ∧
      execDecat start bufLen ⟨[], m, []⟩ = .next (State.answer x ⟨[], m, []⟩) by
    obtain ⟨x, hlegal, hx⟩ := this
    exact ⟨x, hlegal, fun s hs => execDecat_congr hs.symm hx⟩
  obtain ⟨-, h⟩ | ⟨-, -, h⟩ | ⟨_, -, -, -, -, h⟩ | ⟨_, _, -, -, -, hlen, -, h⟩ :=
    execDecat_cases start bufLen ⟨[], m, []⟩
  · exact ⟨.unspecified, trivial, h⟩
  · exact ⟨.response (.error .bufferTooShort), trivial, h⟩
  · exact ⟨.response (.error .bufferTooShort), trivial, h⟩
  · exact ⟨.response (.value _), packedValue_le_maxValue hlen, h⟩

/-- Every instruction delivers one legal answer, whatever is pending and whatever was answered. -/
theorem exec_delivers (i : Instr) (m : Memory) : ∃ x : Answer, x.legal ∧ Delivers i m x := by
  cases i with
  | enc val => exact enc_delivers val m
  | len b0 => exact len_delivers b0 m
  | dec n b0 b1 b2 b3 => exact dec_delivers n b0 b1 b2 b3 m
  | decat start bufLen => exact decat_delivers start bufLen m
  | pv1 o => exact ⟨.response (.value _), bandValue_le_maxValue (b := .band0) o.isLt, fun _ _ => rfl⟩
  | pv2 o => exact ⟨.response (.value _), bandValue_le_maxValue (b := .band1) o.isLt, fun _ _ => rfl⟩
  | pv3 o => exact ⟨.response (.value _), bandValue_le_maxValue (b := .band2) o.isLt, fun _ _ => rfl⟩
  | pv4 o => exact ⟨.response (.value _), bandValue_le_maxValue (b := .band3) o.isLt, fun _ _ => rfl⟩

/-- The answer of an instruction over BUF: the one that it delivers with nothing else in the state. -/
def answerOf (i : Instr) (m : Memory) : Answer :=
  match exec i ⟨[], m, []⟩ with
  | .next t => t.answers.headD .unspecified
  | .fault _ => .unspecified
  | .refused _ => .unspecified

theorem Delivers.answerOf_eq {i : Instr} {m : Memory} {x : Answer} (h : Delivers i m x) :
    answerOf i m = x := by
  rw [answerOf, h ⟨[], m, []⟩ rfl]
  rfl

theorem answerOf_legal (i : Instr) (m : Memory) : (answerOf i m).legal := by
  obtain ⟨x, hlegal, hx⟩ := exec_delivers i m
  rwa [hx.answerOf_eq]

/-- Everything an instruction does: it delivers its answer over BUF (R10, R36). -/
theorem exec_eq_answer (i : Instr) (s : State) : exec i s = .next (s.answer (answerOf i s.buf)) := by
  obtain ⟨x, -, hx⟩ := exec_delivers i s.buf
  rw [hx.answerOf_eq]
  exact hx s rfl

theorem exec_eq_next_answer_iff {i : Instr} {s : State} {x : Answer} :
    exec i s = .next (s.answer x) ↔ answerOf i s.buf = x := by
  rw [exec_eq_answer]
  exact ⟨fun h => answer_inj (Host.Outcome.next.inj h), fun h => by rw [h]⟩

theorem exec_eq_next {i : Instr} {s t : State} (h : exec i s = .next t) :
    t = s.answer (answerOf i s.buf) :=
  (Host.Outcome.next.inj ((exec_eq_answer i s).symm.trans h)).symm

end Sys2Proof.Machine

/-! What a step and a run deliver: each pending transaction its answer over BUF (R24, R158). -/

namespace Sys2Proof.Machine

/-- The answer of an issued transaction over BUF: none the model specifies where its duty was broken
(R156), else that of its instruction, or the rejection of a sequence that is no packed value. -/
def Issued.answerOver (m : Memory) (x : Issued) : Answer :=
  if x.dutyKept = false then .unspecified
  else
    match decode x.input with
    | .ok i => answerOf i m
    | .error e => .response (.error (rejectionKind e))

theorem Issued.answerOver_legal (m : Memory) (x : Issued) : (x.answerOver m).legal := by
  unfold Issued.answerOver
  split
  · trivial
  · split
    · exact answerOf_legal _ m
    · trivial

/-- Everything a step over a pending transaction does: it takes the oldest one off the request port and
delivers its answer over BUF. -/
theorem step_eq_answer (x : Issued) (rest : List Issued) (m : Memory) (as : List Answer) :
    step ⟨x :: rest, m, as⟩ = .next ⟨rest, m, as ++ [x.answerOver m]⟩ := by
  rw [step_cons, Issued.answerOver]
  split
  · rfl
  · cases decode x.input with
    | ok i => exact exec_eq_answer i ⟨rest, m, as⟩
    | error e => rfl

theorem step_eq_next_iff {x : Issued} {rest : List Issued} {m : Memory} {as : List Answer}
    {r : Answer} : step ⟨x :: rest, m, as⟩ = .next ⟨rest, m, as ++ [r]⟩ ↔ x.answerOver m = r := by
  rw [step_eq_answer]
  simp

theorem run_succ {k : Nat} {s t : State} (h : step s = .next t) :
    Host.Core.run Sys2Proof.core (k + 1) s = Host.Core.run Sys2Proof.core k t := by
  have hcore : Sys2Proof.core.step s = .next t := h
  simp only [Host.Core.run, hcore]

/-- As many steps as transactions are pending answer them all, in the order of issue (log 2). -/
theorem run_pending (xs : List Issued) (m : Memory) (as : List Answer) :
    Host.Core.run Sys2Proof.core xs.length (⟨xs, m, as⟩ : State) =
      .next (⟨[], m, as ++ xs.map (Issued.answerOver m)⟩ : State) := by
  induction xs generalizing as with
  | nil => simp [Host.Core.run]
  | cons x xs ih =>
    rw [List.length_cons, run_succ (step_eq_answer x xs m as), ih]
    simp

end Sys2Proof.Machine

/-! The invariant, kept by the step and by the host's acts. -/

namespace Sys2Proof.Machine

/-- Answering the oldest transaction with a legal answer keeps the invariant: BUF stays, fewer
transactions are pending, one answer is new. -/
theorem Invariant.answer_oldest {x : Issued} {rest : List Issued} {m : Memory} {as : List Answer}
    {y : Answer} (h : Invariant ⟨x :: rest, m, as⟩) (hy : y.legal) :
    Invariant ⟨rest, m, as ++ [y]⟩ where
  bufCanonical := h.bufCanonical
  bufIndices := h.bufIndices
  pendingFit z hz := h.pendingFit z (List.mem_cons_of_mem x hz)
  dutiesRecorded z hz := h.dutiesRecorded z (List.mem_cons_of_mem x hz)
  responsesLegal r hr := by
    rcases List.mem_append.mp hr with hold | hnew
    · exact h.responsesLegal r hold
    · rw [← List.mem_singleton.mp hnew] at hy
      exact hy

/-- Settles O47: an answer over BUF is always within R13's ranges. -/
theorem stepKeepsTheInvariant : Obligations.StepKeepsTheInvariant := by
  rintro ⟨pending, m, as⟩ t hinv hstep
  cases pending with
  | nil =>
    cases hstep
    exact hinv
  | cons x rest =>
    rw [step_eq_answer] at hstep
    cases hstep
    exact hinv.answer_oldest (x.answerOver_legal m)

/-- An issue records the duty as it is kept over the BUF of that moment (R151). -/
theorem Invariant.issue {s : State} {x : Input} (h : Invariant s) (hx : x.wellFormed) :
    Invariant (s.issue x) where
  bufCanonical := h.bufCanonical
  bufIndices := h.bufIndices
  pendingFit y hy := by
    rcases List.mem_append.mp hy with hold | hnew
    · exact h.pendingFit y hold
    · cases List.mem_singleton.mp hnew
      exact hx
  dutiesRecorded y hy hkept start bufLen hdecode := by
    rcases List.mem_append.mp hy with hold | hnew
    · exact h.dutiesRecorded y hold hkept start bufLen hdecode
    · cases List.mem_singleton.mp hnew
      exact (issued_decat hdecode).mp hkept
  responsesLegal := h.responsesLegal

/-- A host write takes no byte of BUF away. -/
theorem BufReadable.hostWrite {s t : State} {a bufLen : Nat} {x : Byte} (h : BufReadable bufLen s)
    (hw : s.hostWrite a x = some t) : BufReadable bufLen t := by
  obtain ⟨-, -, -, hread, -⟩ := hostWrite_eq_some hw
  intro b hb
  rw [hread]
  split
  · exact ⟨x, rfl⟩
  · exact h b hb

/-- A host write inside the index space keeps the invariant. -/
theorem Invariant.hostWrite {s t : State} {a : Nat} {x : Byte} (h : Invariant s)
    (ha : a + 1 < 2 ^ Config.IDXW) (hw : s.hostWrite a x = some t) : Invariant t := by
  obtain ⟨hpending, hanswers, hbuf, -, -⟩ := hostWrite_eq_some hw
  refine ⟨hostWrite_wf hw h.bufCanonical, fun c hc => ?_, ?_,
    fun y hy hkept start bufLen hd => ?_, ?_⟩
  · rw [hbuf] at hc
    rcases mem_write hc with rfl | hold
    · exact ha
    · exact h.bufIndices c hold
  · rw [hpending]
    exact h.pendingFit
  · rw [hpending] at hy
    exact (h.dutiesRecorded y hy hkept start bufLen hd).hostWrite hw
  · rw [hanswers]
    exact h.responsesLegal

/-- Settles O48. -/
theorem hostActsKeepTheInvariant : Obligations.HostActsKeepTheInvariant :=
  ⟨fun _ _ hinv hx => hinv.issue hx, fun _ _ _ _ hinv ha hw => hinv.hostWrite ha hw⟩

/-- Settles O49: nothing is pending, provided or answered that could break it. -/
theorem resetMeetsTheInvariant : Obligations.ResetMeetsTheInvariant where
  bufCanonical := reset_wf
  bufIndices _ hc := absurd hc List.not_mem_nil
  pendingFit _ hx := absurd hx List.not_mem_nil
  dutiesRecorded _ hx := absurd hx List.not_mem_nil
  responsesLegal _ hr := absurd hr List.not_mem_nil

end Sys2Proof.Machine

/-! The statements about one instruction. -/

namespace Sys2Proof.Machine

/-- Settles O40: the function is `answerOf`. -/
theorem responseIsAFunctionOfRequestAndBuffer : Obligations.ResponseIsAFunctionOfRequestAndBuffer :=
  ⟨answerOf, exec_eq_answer⟩

/-- Settles O37. -/
theorem execDeliversOneAnswerAndChangesNothingElse :
    Obligations.ExecDeliversOneAnswerAndChangesNothingElse := by
  intro i s t h
  cases exec_eq_next h
  exact ⟨answer_pending _ s, answer_bufByte _ s, answerOf i s.buf, answer_answers _ s⟩

/-- Settles O33: the error is in the answers alone, and no instruction's answer depends on them. -/
theorem errorsLeaveNothingBehind : Obligations.ErrorsLeaveNothingBehind := by
  intro i s t k h herror
  cases exec_eq_next h
  have hk : answerOf i s.buf = .response (.error k) := by simpa using herror
  exact ⟨exec_eq_next_answer_iff.mpr hk,
    fun j r => (exec_eq_next_answer_iff (s := s)).trans
      (exec_eq_next_answer_iff (s := s.answer (answerOf i s.buf))).symm⟩

end Sys2Proof.Machine

/-! The statements about the step and the run. -/

namespace Sys2Proof.Machine

/-- Settles O34. -/
theorem stepRunsTheDecodedInstruction : Obligations.StepRunsTheDecodedInstruction := by
  rintro ⟨_, m, as⟩ x rest i rfl hdecode
  rw [step_cons, hdecode]
  exact ⟨fun hkept => if_neg (by simp [hkept]), fun hbroken => if_pos hbroken⟩

/-- An instruction whose duty is broken over this BUF is left unspecified by its own meaning: it is a
`DECAT` (R156). -/
theorem exec_of_duty_broken {i : Instr} {s : State} (h : keepsDuty s.buf i = false) :
    exec i s = .next s.leaveUnspecified := by
  cases i with
  | decat start bufLen => exact if_pos h
  | _ => cases h

/-- Settles O35: presented and performed in one state, the recorded duty is the one that the instruction
itself would test. -/
theorem presentedTransactionIsExecuted : Obligations.PresentedTransactionIsExecuted := by
  intro s x i hdecode
  have hduty : (s.issued x).dutyKept = keepsDuty s.buf i := by
    rw [issued_dutyKept, inputKeepsDuty, hdecode]
  obtain ⟨hkept, hbroken⟩ :=
    stepRunsTheDecodedInstruction (presentNext x s) (s.issued x) s.pending i rfl hdecode
  cases hd : keepsDuty s.buf i with
  | true => exact hkept (hduty.trans hd)
  | false => exact (hbroken (hduty.trans hd)).trans (exec_of_duty_broken hd).symm

/-- Settles O41: on both sides the answer is the transaction's answer over BUF. -/
theorem firstTransactionAfterResetIsAsAnyOther :
    Obligations.FirstTransactionAfterResetIsAsAnyOther := by
  intro x s rest r
  exact (step_eq_next_iff (as := [])).trans step_eq_next_iff.symm

/-- Settles O42. -/
theorem runAnswersEveryTransactionAsIfItWereAlone :
    Obligations.RunAnswersEveryTransactionAsIfItWereAlone := by
  intro s
  refine ⟨s.pending.map (Issued.answerOver s.buf), run_pending s.pending s.buf s.answers,
    List.length_map _, fun k x r hx hr => ?_⟩
  have hanswer : x.answerOver s.buf = r := by simpa [hx] using hr
  exact (step_eq_next_iff (as := [])).mpr hanswer

/-- Settles O43: each transaction is paired with its answer over BUF, which no order changes. -/
theorem orderOfTransactionsIsNotObservable : Obligations.OrderOfTransactionsIsNotObservable := by
  intro s xs hperm
  refine ⟨s.pending.map (Issued.answerOver s.buf), xs.map (Issued.answerOver s.buf),
    run_pending s.pending s.buf s.answers, run_pending xs s.buf s.answers, ?_⟩
  rw [← List.map_prod_left_eq_zip, ← List.map_prod_left_eq_zip]
  exact hperm.map _

end Sys2Proof.Machine

/-! `DECAT` from the bytes that it reads: the three ways in which it responds over a BUF of the buffer
length, and when it does not respond (R100, R156). `execDecat_cases` says that there is no other. -/

namespace Sys2Proof.Machine

/-- R101: a start at or past the end. -/
theorem exec_decat_of_le_start {start bufLen : Nat} {s : State} (hr : BufReadable bufLen s)
    (hend : bufLen ≤ start) : exec (.decat start bufLen) s = .next (s.raise .bufferTooShort) := by
  change execDecat start bufLen s = _
  simp [execDecat, readableBelow_eq_true.mpr hr, hend]

/-- R102: the packed value runs off the end. -/
theorem exec_decat_of_runs_off {start bufLen : Nat} {first : Byte} {s : State}
    (hr : BufReadable bufLen s) (hstart : start < bufLen) (hfirst : s.bufByte start = some first)
    (hoff : bufLen < start + expectedLength first) :
    exec (.decat start bufLen) s = .next (s.raise .bufferTooShort) := by
  change execDecat start bufLen s = _
  simp [execDecat, readableBelow_eq_true.mpr hr, hstart.not_ge, bufRead_ok.mpr ⟨hstart, hfirst⟩, hoff]

/-- R54, R100: the packed value fits, and its further bytes stand behind the first. -/
theorem exec_decat_of_fits {start bufLen : Nat} {first : Byte} {rest : List Byte} {s : State}
    (hr : BufReadable bufLen s) (hfirst : s.bufByte start = some first)
    (hfits : start + expectedLength first ≤ bufLen) (hlen : rest.length + 1 = expectedLength first)
    (hrest : ∀ (k : Nat) (x : Byte), rest[k]? = some x → s.bufByte (start + 1 + k) = some x) :
    exec (.decat start bufLen) s = .next (s.respond (.value (packedValue first rest))) := by
  have hstart : start < bufLen := by omega
  have hbytes : bufReadBytes s bufLen (start + 1) (expectedLength first - 1) = .ok rest := by
    refine bufReadBytes_ok.mpr ⟨by omega, fun k x hx => ⟨?_, hrest k x hx⟩⟩
    have hk := (List.getElem?_eq_some_iff.mp hx).1
    omega
  change execDecat start bufLen s = _
  simp [execDecat, readableBelow_eq_true.mpr hr, hstart.not_ge, bufRead_ok.mpr ⟨hstart, hfirst⟩,
    hfits.not_gt, hbytes]

/-- An answer is left unspecified or holds a response. -/
theorem Answer.exists_response_iff {x : Answer} : (∃ r, x = .response r) ↔ x ≠ .unspecified := by
  cases x <;> simp

theorem not_bufReadable_iff {bufLen : Nat} {s : State} :
    ¬ BufReadable bufLen s ↔ ∃ a, a < bufLen ∧ s.bufByte a = none := by
  simp [BufReadable, Option.eq_none_iff_forall_ne_some]

/-- The breach of the host's duty about the buffer length, and nothing else, leaves a `DECAT` without
meaning (R156; log 5). -/
theorem answerOf_decat_eq_unspecified_iff {start bufLen : Nat} {s : State} :
    answerOf (.decat start bufLen) s.buf = .unspecified ↔ ¬ BufReadable bufLen s := by
  have hanswer {x : Answer} (h : execDecat start bufLen s = .next (s.answer x)) :
      answerOf (.decat start bufLen) s.buf = x := exec_eq_next_answer_iff.mp h
  obtain ⟨hr, h⟩ | ⟨hr, -, h⟩ | ⟨_, hr, -, -, -, h⟩ | ⟨_, _, hr, -, -, -, -, h⟩ :=
    execDecat_cases start bufLen s <;> simp [hanswer h, hr]

theorem exists_answerOf_decat_eq_response_iff {start bufLen : Nat} {s : State} :
    (∃ r, answerOf (.decat start bufLen) s.buf = .response r) ↔ BufReadable bufLen s := by
  rw [Answer.exists_response_iff, Ne, answerOf_decat_eq_unspecified_iff, not_not]

/-- Settles O30: `DECAT` delivers an answer always, and that is a response exactly over a BUF of the
buffer length. -/
theorem decatNeverReadsOutsideTheBuffer : Obligations.DecatNeverReadsOutsideTheBuffer := by
  intro start bufLen s
  refine ⟨fun f => ?_, ?_, ?_⟩
  · rw [exec_eq_answer]
    exact fun h => by cases h
  · calc
      _ ↔ ∃ r, answerOf (.decat start bufLen) s.buf = .response r :=
        exists_congr fun _ => exec_eq_next_answer_iff
      _ ↔ BufReadable bufLen s := exists_answerOf_decat_eq_response_iff
  · calc
      _ ↔ answerOf (.decat start bufLen) s.buf = .unspecified := exec_eq_next_answer_iff
      _ ↔ ¬ BufReadable bufLen s := answerOf_decat_eq_unspecified_iff
      _ ↔ _ := not_bufReadable_iff

/-- Settles O26: each way in which `DECAT` responds over the first buffer is, by the agreement of the
bytes, the way in which it responds over the second. -/
theorem decatDependsOnItsPackedValueOnly : Obligations.DecatDependsOnItsPackedValueOnly := by
  intro start bufLen s t r ht hsame hpacked hs
  have hanswer {x : Answer} (h : execDecat start bufLen s = .next (s.answer x)) :
      x = .response r := answer_inj (Host.Outcome.next.inj (h.symm.trans hs))
  obtain ⟨-, h⟩ | ⟨-, hend, h⟩ | ⟨first, -, hlt, hfirst, hoff, h⟩ |
    ⟨first, rest, -, hfirst, hfits, hlen, hrest, h⟩ := execDecat_cases start bufLen s
  · cases hanswer h
  · cases hanswer h
    exact exec_decat_of_le_start ht hend
  · cases hanswer h
    exact exec_decat_of_runs_off ht hlt ((hsame hlt).trans hfirst) hoff
  · cases hanswer h
    have hread {a : Nat} (hge : start ≤ a) (hlt : a < start + expectedLength first) :
        t.bufByte a = s.bufByte a := by
      rw [expectedLength_eq] at hfits hlt
      exact hpacked first hfirst hfits a hge hlt
    refine exec_decat_of_fits ht ((hread le_rfl (by omega)).trans hfirst) hfits hlen
      fun k x hx => ?_
    have hk : k < rest.length := (List.getElem?_eq_some_iff.mp hx).1
    exact (hread (by omega) (by omega)).trans (hrest k x hx)

end Sys2Proof.Machine

/-! The host's writes while transactions are pending (R38, R153, R156). -/

namespace Sys2Proof.Machine

/-- Settles O44: what `held` says, and what a write that is made does. -/
theorem hostWriteIsNoMoveExactlyInAPendingWindow :
    Obligations.HostWriteIsNoMoveExactlyInAPendingWindow := by
  intro s a x
  refine ⟨?_, fun t hw => ?_⟩
  · rw [hostWrite_eq_none, held_iff]
    exact and_comm
  · obtain ⟨hpending, hanswers, -, hread, -⟩ := hostWrite_eq_some hw
    exact ⟨hpending, hanswers, hread⟩

/-- `DECAT` alone reads BUF (R14). -/
theorem answerOf_of_ne_decat {i : Instr} (h : ∀ start bufLen, i ≠ .decat start bufLen)
    (m m' : Memory) : answerOf i m = answerOf i m' := by
  cases i with
  | enc val =>
    simp only [answerOf, exec, execEnc]
    split_ifs <;> rfl
  | dec n b0 b1 b2 b3 =>
    simp only [answerOf, exec, execDec]
    split_ifs <;> rfl
  | decat start bufLen => exact absurd rfl (h start bufLen)
  | len b0 => rfl
  | pv1 o => rfl
  | pv2 o => rfl
  | pv3 o => rfl
  | pv4 o => rfl

/-- The answer of an issued transaction depends on BUF only where it is a `DECAT` issued with its duty
kept. -/
theorem Issued.answerOver_cases (y : Issued) :
    (∃ start bufLen, y.dutyKept = true ∧ decode y.input = .ok (.decat start bufLen) ∧
      ∀ m, y.answerOver m = answerOf (.decat start bufLen) m) ∨
    ∀ m m', y.answerOver m = y.answerOver m' := by
  unfold Issued.answerOver
  cases hkept : y.dutyKept with
  | false => exact .inr fun _ _ => rfl
  | true =>
    cases hdecode : decode y.input with
    | error e => exact .inr fun _ _ => rfl
    | ok i =>
      by_cases hdecat : ∃ start bufLen, i = .decat start bufLen
      · obtain ⟨start, bufLen, rfl⟩ := hdecat
        exact .inl ⟨start, bufLen, rfl, rfl, fun _ => rfl⟩
      · exact .inr (answerOf_of_ne_decat fun start bufLen h => hdecat ⟨start, bufLen, h⟩)

section HostWrite

variable {s t : State} {a : Nat} {x : Byte} {y : Issued}

/-- A host write changes no byte of a pending `DECAT`'s window, which holds every byte that it reads:
it responds as before. -/
theorem answerOf_decat_hostWrite {start bufLen : Nat} {r : Response} (hw : s.hostWrite a x = some t)
    (hy : y ∈ s.pending) (hdecode : decode y.input = .ok (.decat start bufLen))
    (hr : answerOf (.decat start bufLen) s.buf = .response r) :
    answerOf (.decat start bufLen) t.buf = .response r := by
  obtain ⟨-, -, -, -, hheld⟩ := hostWrite_eq_some hw
  have hwindow {b : Nat} (hge : start ≤ b) (hlt : b < start + 4) (hlen : b < bufLen) :
      t.bufByte b = s.bufByte b :=
    hheld b (held_iff.mpr ⟨y, hy, start, bufLen, hdecode, hge, hlt, hlen⟩)
  have hreadable : BufReadable bufLen s := exists_answerOf_decat_eq_response_iff.mp ⟨r, hr⟩
  refine exec_eq_next_answer_iff.mp (decatDependsOnItsPackedValueOnly start bufLen s t r
    (hreadable.hostWrite hw) (hwindow le_rfl (by omega)) (fun first _ hfits b hge hlt => ?_)
    (exec_eq_next_answer_iff.mpr hr))
  have hfirst := first.isLt
  exact hwindow hge (by omega) (by omega)

theorem Issued.answerOver_hostWrite_of_response {r : Response} (hw : s.hostWrite a x = some t)
    (hy : y ∈ s.pending) (hr : y.answerOver s.buf = .response r) :
    y.answerOver t.buf = .response r := by
  obtain ⟨start, bufLen, -, hdecode, hanswer⟩ | hconst := y.answerOver_cases
  · rw [hanswer] at hr ⊢
    exact answerOf_decat_hostWrite hw hy hdecode hr
  · rw [hconst t.buf s.buf, hr]

/-- With the duties recorded, a pending `DECAT` that reads BUF has a response to keep. -/
theorem Issued.answerOver_hostWrite (hduties : DutiesRecorded s) (hw : s.hostWrite a x = some t)
    (hy : y ∈ s.pending) : y.answerOver s.buf = y.answerOver t.buf := by
  obtain ⟨start, bufLen, hkept, hdecode, hanswer⟩ | hconst := y.answerOver_cases
  · have hreadable : BufReadable bufLen s := hduties y hy hkept start bufLen hdecode
    obtain ⟨r, hr⟩ := exists_answerOf_decat_eq_response_iff.mpr hreadable
    rw [hanswer, hanswer, hr, answerOf_decat_hostWrite hw hy hdecode hr]
  · exact hconst s.buf t.buf

end HostWrite

/-- Settles O45: alone over BUF, a transaction gets its answer over BUF. -/
theorem hostWritesKeepTheResponsesOfPendingTransactions :
    Obligations.HostWritesKeepTheResponsesOfPendingTransactions := by
  intro s t a x y hw hy
  have halone {m : Memory} {r : Answer} :
      step ⟨[y], m, []⟩ = .next ⟨[], m, [r]⟩ ↔ y.answerOver m = r := step_eq_next_iff (as := [])
  refine ⟨fun r hr => ?_, fun hduties r => ?_⟩
  · exact halone.mpr (Issued.answerOver_hostWrite_of_response hw hy (halone.mp hr))
  · rw [halone, halone, Issued.answerOver_hostWrite hduties hw hy]

end Sys2Proof.Machine

/-! What a step leaves unchanged (R36, R158). -/

namespace Sys2Proof.Machine

/-- Settles O38: a step's only effect besides taking the oldest transaction is one answer. -/
theorem stepAnswersOneTransactionAndWritesNoMemory :
    Obligations.StepAnswersOneTransactionAndWritesNoMemory := by
  rintro ⟨_, m, as⟩ t x rest rfl hstep
  rw [step_eq_answer] at hstep
  cases hstep
  exact ⟨rfl, fun _ => rfl, x.answerOver m, rfl⟩

end Sys2Proof.Machine

/-! The packed-value formats decoded and encoded: each format from its tag, what the decoder accepts,
and its two round trips with the encoder (R53, R57, R58, R60). -/

namespace Sys2Proof

/-- A tag as the number in bits 7..6 of the first byte (R50). -/
theorem tagBits_eq_iff {b : Byte} {tag : BitVec 2} : tagBits b = tag ↔ b.toNat / 64 = tag.toNat := by
  rw [← BitVec.toNat_inj, Machine.tagBits_toNat]

theorem decodeSequence_pv1 {s0 : Byte} (h : tagBits s0 = 0b00) :
    decodeSequence [s0] = .ok (.pv1 (lowBits s0)) := if_pos h

theorem decodeSequence_pv2 {s0 s1 : Byte} (h : tagBits s0 = 0b01) :
    decodeSequence [s0, s1] = .ok (.pv2 (offset14 (lowBits s0) s1)) := if_pos h

theorem decodeSequence_pv3 {s0 s1 s2 : Byte} (h : tagBits s0 = 0b10) :
    decodeSequence [s0, s1, s2] = .ok (.pv3 (offset22 (lowBits s0) s1 s2)) := if_pos h

theorem decodeSequence_pv4 {s0 s1 s2 s3 : Byte} (h : tagBits s0 = 0b11) :
    decodeSequence [s0, s1, s2, s3] = .ok (.pv4 (offset30 (lowBits s0) s1 s2 s3)) := if_pos h

/-- Settles O1: an operation's request holds its operands as they are, and the offset bits of a format
are those of its bytes. -/
theorem decodeOfEncodeIsTheInstruction : Obligations.DecodeOfEncodeIsTheInstruction := by
  intro i
  cases i with
  | enc val => rfl
  | len b0 => rfl
  | dec n b0 b1 b2 b3 => rfl
  | decat start bufLen => rfl
  | pv1 o => rw [encode, decode, decodeSequence_pv1 (tagBits_firstByte _ _), lowBits_firstByte]
  | pv2 o =>
    rw [encode, decode, decodeSequence_pv2 (tagBits_firstByte _ _), lowBits_firstByte,
      offset14_slices]
  | pv3 o =>
    rw [encode, decode, decodeSequence_pv3 (tagBits_firstByte _ _), lowBits_firstByte,
      offset22_slices]
  | pv4 o =>
    rw [encode, decode, decodeSequence_pv4 (tagBits_firstByte _ _), lowBits_firstByte,
      offset30_slices]

/-- A non-empty sequence of another length than its first byte announces is refused (R58 (c)). -/
theorem decodeSequence_of_length_ne {first : Byte} {rest : List Byte}
    (h : (first :: rest).length ≠ expectedLength first) :
    decodeSequence (first :: rest) = .error .lengthMismatch := by
  have htag (tag : BitVec 2) (hlen : rest.length = tag.toNat) : tagBits first ≠ tag := by
    intro he
    rw [expectedLength, he, ← hlen] at h
    exact h rfl
  match rest with
  | [] => exact if_neg (htag 0b00 rfl)
  | [_] => exact if_neg (htag 0b01 rfl)
  | [_, _] => exact if_neg (htag 0b10 rfl)
  | [_, _, _] => exact if_neg (htag 0b11 rfl)
  | _ :: _ :: _ :: _ :: _ => rfl

/-- The decoder on a well-formed packed value: the format of its length, with its offset bits
(R53, R54). -/
theorem decodeSequence_of_isPacked {p : List Byte} (h : Machine.IsPacked p) :
    (∃ s0, p = [s0] ∧ s0.toNat / 64 = 0 ∧ decodeSequence p = .ok (.pv1 (lowBits s0))) ∨
    (∃ s0 s1, p = [s0, s1] ∧ s0.toNat / 64 = 1 ∧
      decodeSequence p = .ok (.pv2 (offset14 (lowBits s0) s1))) ∨
    (∃ s0 s1 s2, p = [s0, s1, s2] ∧ s0.toNat / 64 = 2 ∧
      decodeSequence p = .ok (.pv3 (offset22 (lowBits s0) s1 s2))) ∨
    (∃ s0 s1 s2 s3, p = [s0, s1, s2, s3] ∧ s0.toNat / 64 = 3 ∧
      decodeSequence p = .ok (.pv4 (offset30 (lowBits s0) s1 s2 s3))) := by
  obtain ⟨s0, rfl, ht⟩ | ⟨s0, s1, rfl, ht⟩ | ⟨s0, s1, s2, rfl, ht⟩ | ⟨s0, s1, s2, s3, rfl, ht⟩ :=
    Machine.isPacked_cases h
  · exact .inl ⟨s0, rfl, ht, decodeSequence_pv1 (tagBits_eq_iff.mpr ht)⟩
  · exact .inr (.inl ⟨s0, s1, rfl, ht, decodeSequence_pv2 (tagBits_eq_iff.mpr ht)⟩)
  · exact .inr (.inr (.inl ⟨s0, s1, s2, rfl, ht, decodeSequence_pv3 (tagBits_eq_iff.mpr ht)⟩))
  · exact .inr (.inr (.inr ⟨s0, s1, s2, s3, rfl, ht, decodeSequence_pv4 (tagBits_eq_iff.mpr ht)⟩))

theorem exists_decodeSequence_of_isPacked {p : List Byte} (h : Machine.IsPacked p) :
    ∃ i, decodeSequence p = .ok i := by
  obtain ⟨_, _, _, hd⟩ | ⟨_, _, _, _, hd⟩ | ⟨_, _, _, _, _, hd⟩ | ⟨_, _, _, _, _, _, hd⟩ :=
    decodeSequence_of_isPacked h <;> exact ⟨_, hd⟩

/-- Only a well-formed packed value decodes (R57). -/
theorem isPacked_of_decodeSequence {p : List Byte} {i : Instr} (h : decodeSequence p = .ok i) :
    Machine.IsPacked p := by
  cases p with
  | nil => cases h
  | cons first rest =>
    refine ⟨first, rest, rfl, ?_⟩
    by_contra hlen
    rw [decodeSequence_of_length_ne hlen] at h
    cases h

/-- Settles O3: the empty sequence, the packed values and the sequences of another length are all there
are, and no two of them are one. -/
theorem sequenceDecodesExactlyWhenWellFormed : Obligations.SequenceDecodesExactlyWhenWellFormed := by
  intro p
  simp only [decode, ← Machine.expectedLength_eq]
  cases p with
  | nil => simp [decodeSequence]
  | cons first rest =>
    by_cases hlen : (first :: rest).length = expectedLength first
    · obtain ⟨i, hi⟩ := exists_decodeSequence_of_isPacked ⟨first, rest, rfl, hlen⟩
      simpa [hi] using hlen
    · simpa [decodeSequence_of_length_ne hlen] using hlen

/-- A first byte put together again from its tag and its low bits. -/
theorem firstByte_lowBits {s0 : Byte} {tag : BitVec 2} (h : s0.toNat / 64 = tag.toNat) :
    firstByte tag (lowBits s0) = s0 := by
  rw [← tagBits_eq_iff.mpr h, firstByte_fields]

/-- A slice above the last joined byte is one of the bits joined before it. -/
theorem extractLsb'_above_byte {w : Nat} (high : BitVec w) (x : Byte) (start len : Nat) :
    (high ++ x).extractLsb' (start + 8) len = high.extractLsb' start len :=
  BitVec.extractLsb'_append_eq_of_le (Nat.le_add_left 8 start)

section Slices

variable (high : BitVec 6) (s1 s2 s3 : Byte)

theorem offset22_extract_high : (offset22 high s1 s2).extractLsb' 16 6 = high :=
  (extractLsb'_above_byte (offset14 high s1) s2 8 6).trans BitVec.extractLsb'_append_eq_left

theorem offset22_extract_s1 : (offset22 high s1 s2).extractLsb' 8 8 = s1 :=
  (extractLsb'_above_byte (offset14 high s1) s2 0 8).trans BitVec.extractLsb'_append_eq_right

theorem offset22_extract_s2 : (offset22 high s1 s2).extractLsb' 0 8 = s2 :=
  BitVec.extractLsb'_append_eq_right

theorem offset30_extract_high : (offset30 high s1 s2 s3).extractLsb' 24 6 = high :=
  (extractLsb'_above_byte (offset22 high s1 s2) s3 16 6).trans (offset22_extract_high high s1 s2)

theorem offset30_extract_s1 : (offset30 high s1 s2 s3).extractLsb' 16 8 = s1 :=
  (extractLsb'_above_byte (offset22 high s1 s2) s3 8 8).trans (offset22_extract_s1 high s1 s2)

theorem offset30_extract_s2 : (offset30 high s1 s2 s3).extractLsb' 8 8 = s2 :=
  (extractLsb'_above_byte (offset22 high s1 s2) s3 0 8).trans (offset22_extract_s2 high s1 s2)

theorem offset30_extract_s3 : (offset30 high s1 s2 s3).extractLsb' 0 8 = s3 :=
  BitVec.extractLsb'_append_eq_right

end Slices

theorem encode_pv1_lowBits {s0 : Byte} (h : s0.toNat / 64 = 0) :
    encode (.pv1 (lowBits s0)) = .sequence [s0] := by
  rw [encode, firstByte_lowBits h]

theorem encode_pv2_offset14 {s0 : Byte} (s1 : Byte) (h : s0.toNat / 64 = 1) :
    encode (.pv2 (offset14 (lowBits s0) s1)) = .sequence [s0, s1] := by
  rw [encode, offset14, BitVec.extractLsb'_append_eq_left, BitVec.extractLsb'_append_eq_right,
    firstByte_lowBits h]

theorem encode_pv3_offset22 {s0 : Byte} (s1 s2 : Byte) (h : s0.toNat / 64 = 2) :
    encode (.pv3 (offset22 (lowBits s0) s1 s2)) = .sequence [s0, s1, s2] := by
  rw [encode, offset22_extract_high, offset22_extract_s1, offset22_extract_s2, firstByte_lowBits h]

theorem encode_pv4_offset30 {s0 : Byte} (s1 s2 s3 : Byte) (h : s0.toNat / 64 = 3) :
    encode (.pv4 (offset30 (lowBits s0) s1 s2 s3)) = .sequence [s0, s1, s2, s3] := by
  rw [encode, offset30_extract_high, offset30_extract_s1, offset30_extract_s2, offset30_extract_s3,
    firstByte_lowBits h]

/-- Settles O2: a format's bytes hold its tag and its offset bits, and nothing else. -/
theorem encodeOfDecodedSequenceIsTheSequence : Obligations.EncodeOfDecodedSequenceIsTheSequence := by
  intro p i h
  obtain ⟨s0, rfl, ht, hd⟩ | ⟨s0, s1, rfl, ht, hd⟩ | ⟨s0, s1, s2, rfl, ht, hd⟩ |
    ⟨s0, s1, s2, s3, rfl, ht, hd⟩ :=
      decodeSequence_of_isPacked (isPacked_of_decodeSequence h) <;>
    cases hd.symm.trans h
  · exact encode_pv1_lowBits ht
  · exact encode_pv2_offset14 s1 ht
  · exact encode_pv3_offset22 s1 s2 ht
  · exact encode_pv4_offset30 s1 s2 s3 ht

end Sys2Proof

/-! Requests and words written out (R53, R60). -/

namespace Sys2Proof

section DecodeRequest

variable {r : Request}

theorem decodeRequest_enc (h : r.op = 0b00) : decodeRequest r = .enc r.val := by
  rw [decodeRequest, h]
  rfl

theorem decodeRequest_len (h : r.op = 0b01) : decodeRequest r = .len r.b0 := by
  rw [decodeRequest, h]
  rfl

theorem decodeRequest_dec (h : r.op = 0b10) :
    decodeRequest r = .dec r.n r.b0 r.b1 r.b2 r.b3 := by
  rw [decodeRequest, h]
  rfl

theorem decodeRequest_decat (h : r.op = 0b11) : decodeRequest r = .decat r.start r.bufLen := by
  rw [decodeRequest, h]
  rfl

end DecodeRequest

/-- Settles O4: an instruction for each of the four codes, none left over. -/
theorem requestDecodesByItsOperationCode : Obligations.RequestDecodesByItsOperationCode := fun r =>
  ⟨fun h => congrArg Except.ok (decodeRequest_enc h),
    fun h => congrArg Except.ok (decodeRequest_len h),
    fun h => congrArg Except.ok (decodeRequest_dec h),
    fun h => congrArg Except.ok (decodeRequest_decat h), decodeRequest r, rfl⟩

/-- Settles O5: the decoder run on each word. -/
theorem writtenOutWordsDecode : Obligations.WrittenOutWordsDecode := by
  unfold Obligations.WrittenOutWordsDecode
  decide

end Sys2Proof

/-! The band table, the values of the packed-value formats and the status codes (R52, R55, R61). -/

namespace Sys2Proof.Machine

/-- Settles O7: the constants are closed numbers, and so are the sums, band by band. -/
theorem bandBasesAreTheSumsOfTheBandsBelow : Obligations.BandBasesAreTheSumsOfTheBandsBelow :=
  ⟨rfl, rfl, rfl, rfl, rfl, rfl, rfl, fun b => ⟨rfl, by cases b <;> rfl⟩, rfl⟩

/-- The sum of R55 does not overflow 32 bits. -/
theorem bandValue_toNat {b : Band} {o : Nat} (h : o < 2 ^ bandOffsetBits b) :
    (bandValue b o).toNat = o + bandBase b := by
  rw [bandValue, BitVec.toNat_ofNat]
  apply Nat.mod_eq_of_lt
  cases b <;> simp only [bandOffsetBits, bandIndex, bandBase] at h ⊢ <;> omega

/-- An offset that fits its band's bits has a value in the band (R51, R55). -/
theorem bandValue_mem_band {b : Band} {o : Nat} (h : o < 2 ^ bandOffsetBits b) :
    bandBase b ≤ (bandValue b o).toNat ∧
      (bandValue b o).toNat ≤ bandBase b + (2 ^ bandOffsetBits b - 1) := by
  rw [bandValue_toNat h]
  omega

/-- Settles O17: each format answers the value of its offset in its band. -/
theorem packedFormatsHaveOffsetPlusBase : Obligations.PackedFormatsHaveOffsetPlusBase := by
  refine ⟨fun o s => ?_, fun o s => ?_, fun o s => ?_, fun o s => ?_⟩
  · obtain ⟨-, hle⟩ := bandValue_mem_band (b := .band0) o.isLt
    exact ⟨_, bandValue_toNat (b := .band0) o.isLt, hle, rfl⟩
  · obtain ⟨hge, hle⟩ := bandValue_mem_band (b := .band1) o.isLt
    exact ⟨_, bandValue_toNat (b := .band1) o.isLt, hge, hle, rfl⟩
  · obtain ⟨hge, hle⟩ := bandValue_mem_band (b := .band2) o.isLt
    exact ⟨_, bandValue_toNat (b := .band2) o.isLt, hge, hle, rfl⟩
  · obtain ⟨hge, hle⟩ := bandValue_mem_band (b := .band3) o.isLt
    exact ⟨_, bandValue_toNat (b := .band3) o.isLt, hge, hle, rfl⟩

/-- No status code is above 5 (R61). -/
theorem status_toNat_le_five (r : Response) : r.status.toNat ≤ 5 := by
  cases r with
  | encoded len b => exact Nat.zero_le 5
  | length len => exact Nat.zero_le 5
  | value val => exact Nat.zero_le 5
  | error k => cases k <;> decide

/-- Settles O32: 6 and 7 are above every code of the table. -/
theorem statusCodesAreAsTabled : Obligations.StatusCodesAreAsTabled := by
  refine ⟨fun _ _ => rfl, fun _ => rfl, fun _ => rfl, rfl, rfl, rfl, rfl, rfl, fun r => ?_⟩
  have hle := status_toNat_le_five r
  exact ⟨fun h6 => absurd (h6 ▸ hle) (by decide), fun h7 => absurd (h7 ▸ hle) (by decide)⟩

end Sys2Proof.Machine

/-! A presented byte sequence is answered as the `DEC` request that carries it (R58 (c), D9). -/

namespace Sys2Proof.Machine

theorem inLanes_iff_prefix {p : List Byte} {b0 b1 b2 b3 : Byte} :
    InLanes p b0 b1 b2 b3 ↔ p <+: [b0, b1, b2, b3] := by
  rw [List.prefix_iff_getElem?]
  constructor
  · exact fun h k hk => h k p[k] (List.getElem?_eq_getElem hk)
  · intro h k x hx
    obtain ⟨hk, rfl⟩ := List.getElem?_eq_some_iff.mp hx
    exact h k hk

/-- `DEC` of a non-empty sequence of another length than its first byte announces (R92). -/
theorem exec_dec_of_length_ne {n : Nat} {b0 : Byte} (b1 b2 b3 : Byte) (s : State) (hn : n ≠ 0)
    (h : n ≠ expectedLength b0) :
    exec (.dec n b0 b1 b2 b3) s = .next (s.raise .lengthMismatch) :=
  (if_neg hn).trans (if_pos h.symm)

/-- `DEC` of a well-formed packed value in the lanes (R90). -/
theorem exec_dec_of_isPacked {first : Byte} {rest : List Byte} {b0 b1 b2 b3 : Byte} (s : State)
    (hp : IsPacked (first :: rest)) (hlanes : InLanes (first :: rest) b0 b1 b2 b3) :
    exec (.dec (first :: rest).length b0 b1 b2 b3) s =
      .next (s.respond (.value (packedValue first rest))) := by
  obtain ⟨_, _, ⟨⟩, hlen⟩ := hp
  obtain ⟨rfl, hrest⟩ := List.cons_prefix_cons.mp (inLanes_iff_prefix.mp hlanes)
  have htake : [b1, b2, b3].take rest.length = rest := (List.prefix_iff_eq_take.mp hrest).symm
  change execDec _ _ _ _ _ _ = _
  rw [execDec, if_neg (by simp), if_neg (not_not.mpr hlen.symm), List.length_cons,
    Nat.add_sub_cancel, htake]

/-- The format that a packed value decodes to has the value of its bytes (R54, R55). -/
theorem exec_of_decodeSequence {first : Byte} {rest : List Byte} {i : Instr} (s : State)
    (h : decodeSequence (first :: rest) = .ok i) :
    exec i s = .next (s.respond (.value (packedValue first rest))) := by
  obtain ⟨s0, hp, ht, hd⟩ | ⟨s0, s1, hp, ht, hd⟩ | ⟨s0, s1, s2, hp, ht, hd⟩ |
    ⟨s0, s1, s2, s3, hp, ht, hd⟩ :=
      decodeSequence_of_isPacked (isPacked_of_decodeSequence h) <;>
    cases hp <;> cases hd.symm.trans h
  · rw [packedValue_one ht, ← lowBits_toNat]
    rfl
  · rw [packedValue_two s1 ht, ← lowBits_toNat, ← offset14_toNat]
    rfl
  · rw [packedValue_three s1 s2 ht, ← lowBits_toNat, ← offset22_toNat]
    rfl
  · rw [packedValue_four s1 s2 s3 ht, ← lowBits_toNat, ← offset30_toNat]
    rfl

section Sequence

variable {p : List Byte} {b0 b1 b2 b3 : Byte}

/-- A sequence that decodes gets the value that `DEC` gives it (R55). -/
theorem answerOf_of_decodeSequence {i : Instr} (m : Memory) (h : decodeSequence p = .ok i)
    (hlanes : InLanes p b0 b1 b2 b3) : answerOf i m = answerOf (.dec p.length b0 b1 b2 b3) m := by
  obtain ⟨first, rest, rfl, hlen⟩ := isPacked_of_decodeSequence h
  have hformat := exec_of_decodeSequence ⟨[], m, []⟩ h
  have hdec := exec_dec_of_isPacked ⟨[], m, []⟩ ⟨first, rest, rfl, hlen⟩ hlanes
  exact (exec_eq_next_answer_iff.mp hformat).trans (exec_eq_next_answer_iff.mp hdec).symm

/-- A sequence that is refused gets the error that `DEC` gives it (R91, R92). -/
theorem answerOf_dec_of_decodeSequence_error {e : DecodeError} (m : Memory)
    (h : decodeSequence p = .error e) (hfirst : ∀ x, p[0]? = some x → b0 = x) :
    answerOf (.dec p.length b0 b1 b2 b3) m = .response (.error (rejectionKind e)) := by
  cases p with
  | nil =>
    cases h
    rfl
  | cons first rest =>
    obtain rfl : b0 = first := hfirst first rfl
    by_cases hlen : (b0 :: rest).length = expectedLength b0
    · obtain ⟨i, hi⟩ := exists_decodeSequence_of_isPacked ⟨b0, rest, rfl, hlen⟩
      cases hi.symm.trans h
    · cases (decodeSequence_of_length_ne hlen).symm.trans h
      exact exec_eq_next_answer_iff.mp
        (exec_dec_of_length_ne b1 b2 b3 ⟨[], m, []⟩ (Nat.succ_ne_zero _) hlen)

/-- A sequence and the `DEC` request that carries as much of it as the lanes hold have one answer. -/
theorem answerOver_sequence_eq_dec {x : Input} (kept : Bool) (m : Memory)
    (hx : decode x = .ok (.dec p.length b0 b1 b2 b3))
    (hlanes : ∀ k, k < 4 → k < p.length → [b0, b1, b2, b3][k]? = p[k]?) :
    (⟨.sequence p, kept⟩ : Issued).answerOver m = (⟨x, kept⟩ : Issued).answerOver m := by
  simp only [Issued.answerOver, hx]
  split
  · rfl
  cases hd : decode (.sequence p) with
  | ok i =>
    refine answerOf_of_decodeSequence m hd fun k y hy => ?_
    obtain ⟨hk, -⟩ := List.getElem?_eq_some_iff.mp hy
    obtain ⟨first, rest, -, hlen⟩ := isPacked_of_decodeSequence hd
    have hle := expectedLength_le first
    rw [hlanes k (by omega) hk, hy]
  | error e =>
    refine (answerOf_dec_of_decodeSequence_error m hd fun y hy => ?_).symm
    obtain ⟨hk, -⟩ := List.getElem?_eq_some_iff.mp hy
    exact Option.some.inj ((hlanes 0 (by omega) hk).trans hy)

end Sequence

/-- No sequence is a `DECAT`, which alone has a duty of the host (R156). -/
theorem issued_sequence (p : List Byte) (s : State) : s.issued (.sequence p) = ⟨.sequence p, true⟩ := by
  refine congrArg (Issued.mk _) (inputKeepsDuty_iff.mpr fun start bufLen h => ?_)
  cases encodeOfDecodedSequenceIsTheSequence p _ h

theorem issued_of_decode_dec {x : Input} {n : Nat} {b0 b1 b2 b3 : Byte} (s : State)
    (h : decode x = .ok (.dec n b0 b1 b2 b3)) : s.issued x = ⟨x, true⟩ := by
  rw [State.issued, inputKeepsDuty, h]
  rfl

/-- Settles O18: the two are issued with the same duty and have one answer, whatever BUF holds. -/
theorem presentedSequenceIsAnsweredAsDecAnswersIt :
    Obligations.PresentedSequenceIsAnsweredAsDecAnswersIt := by
  intro s p rest kept r hop hn hlanes
  have hdecode : decode (.request r) = .ok (.dec p.length r.b0 r.b1 r.b2 r.b3) := by
    rw [decode, decodeRequest_dec hop, hn]
  have hstep (kept : Bool) (rest : List Issued) :
      step { s with pending := ⟨.sequence p, kept⟩ :: rest } =
        step { s with pending := ⟨.request r, kept⟩ :: rest } := by
    rw [step_eq_answer, step_eq_answer, answerOver_sequence_eq_dec kept s.buf hdecode hlanes]
  refine ⟨hstep kept rest, ?_⟩
  rw [presentNext, presentNext, issued_sequence, issued_of_decode_dec s hdecode]
  exact hstep true s.pending

end Sys2Proof.Machine

/-! The band of a value: the one range that holds it, and the thresholds that it reaches (R51, R73). -/

namespace Sys2Proof.Machine

section Band

variable {v : Nat} {b : Band}

theorem bandOfValue_eq_of_mem_band (hge : bandBase b ≤ v)
    (hle : v ≤ bandBase b + 2 ^ bandOffsetBits b - 1) : bandOfValue v = b := by
  cases b <;> simp only [bandBase, bandOffsetBits, bandIndex] at hge hle
  · exact bandOfValue_band0 (by omega)
  · exact bandOfValue_band1 hge (by omega)
  · exact bandOfValue_band2 hge (by omega)
  · exact bandOfValue_band3 hge

/-- The bands leave no gap below `LIMIT` (R51). -/
theorem mem_band_bandOfValue (h : v ≤ maxValue) :
    bandBase (bandOfValue v) ≤ v ∧
      v ≤ bandBase (bandOfValue v) + 2 ^ bandOffsetBits (bandOfValue v) - 1 := by
  rw [bandOfValue_eq]
  split_ifs <;> simp only [maxValue, bandBase, bandOffsetBits, bandIndex] at h ⊢ <;> omega

theorem mem_band_iff (h : v ≤ maxValue) :
    (bandBase b ≤ v ∧ v ≤ bandBase b + 2 ^ bandOffsetBits b - 1) ↔ b = bandOfValue v := by
  constructor
  · rintro ⟨hge, hle⟩
    exact (bandOfValue_eq_of_mem_band hge hle).symm
  · rintro rfl
    exact mem_band_bandOfValue h

end Band

/-- The band's number counts the thresholds reached (R73). -/
theorem bandIndex_bandOfValue (v : Nat) :
    bandIndex (bandOfValue v) =
      (if 0x40 ≤ v then 1 else 0) + (if 0x4040 ≤ v then 1 else 0) +
        (if 0x404040 ≤ v then 1 else 0) := by
  rw [bandOfValue_eq]
  split_ifs <;> simp only [bandIndex] <;> omega

/-- Settles O8. -/
theorem bandOfValueIsTheUniqueBand : Obligations.BandOfValueIsTheUniqueBand :=
  fun v h => ⟨fun _ => mem_band_iff h, bandIndex_bandOfValue v⟩

end Sys2Proof.Machine

/-! `ENC`: its three ways to answer, and the bytes of each band by the offset (R56, R70 to R74). -/

namespace Sys2Proof.Machine

section Enc

variable {val : Val} {v : Nat}

/-- R71. -/
theorem exec_enc_of_neg (s : State) (h : val.toInt < 0) :
    exec (.enc val) s = .next (s.raise .negative) := if_pos h

/-- R72. -/
theorem exec_enc_of_maxValue_lt (s : State) (h : (maxValue : Int) < val.toInt) :
    exec (.enc val) s = .next (s.raise .tooLarge) :=
  (if_neg (Int.natCast_nonneg maxValue |>.trans_lt h).not_gt).trans (if_pos h)

/-- R74: the length and the bytes of a value of the domain. -/
theorem exec_enc_of_le_maxValue (s : State) (hv : val.toInt = v) (h : v ≤ maxValue) :
    exec (.enc val) s =
      .next (s.respond (.encoded (lengthField (bandLength (bandOfValue v))) (packValue v))) := by
  have hnat : val.toInt.toNat = v := by rw [hv, Int.toNat_natCast]
  have hneg : ¬ val.toInt < 0 := by omega
  have hlarge : ¬ val.toInt > maxValue := by omega
  exact hnat ▸ (if_neg hneg).trans (if_neg hlarge)

end Enc

/-- Everything `ENC` can answer (R70). -/
theorem answerOf_enc_cases (val : Val) (m : Memory) :
    (val.toInt < 0 ∧ answerOf (.enc val) m = .response (.error .negative)) ∨
    ((maxValue : Int) < val.toInt ∧ answerOf (.enc val) m = .response (.error .tooLarge)) ∨
    ∃ v : Nat, val.toInt = v ∧ v ≤ maxValue ∧ answerOf (.enc val) m =
      .response (.encoded (lengthField (bandLength (bandOfValue v))) (packValue v)) := by
  by_cases hneg : val.toInt < 0
  · exact .inl ⟨hneg, exec_eq_next_answer_iff.mp (exec_enc_of_neg ⟨[], m, []⟩ hneg)⟩
  by_cases hlarge : (maxValue : Int) < val.toInt
  · exact .inr (.inl ⟨hlarge,
      exec_eq_next_answer_iff.mp (exec_enc_of_maxValue_lt ⟨[], m, []⟩ hlarge)⟩)
  obtain ⟨v, hv⟩ := Int.eq_ofNat_of_zero_le (not_lt.mp hneg)
  have hle : v ≤ maxValue := by omega
  exact .inr (.inr ⟨v, hv, hle,
    exec_eq_next_answer_iff.mp (exec_enc_of_le_maxValue ⟨[], m, []⟩ hv hle)⟩)

theorem exec_enc_eq_negative_iff {val : Val} {s : State} :
    exec (.enc val) s = .next (s.raise .negative) ↔ val.toInt < 0 := by
  refine exec_eq_next_answer_iff.trans ?_
  obtain ⟨hneg, h⟩ | ⟨hlarge, h⟩ | ⟨v, hv, -, h⟩ := answerOf_enc_cases val s.buf
  · simpa [h] using hneg
  · have hnonneg : 0 ≤ val.toInt := by omega
    simpa [h] using hnonneg
  · simp [h, hv]

theorem exec_enc_eq_tooLarge_iff {val : Val} {s : State} :
    exec (.enc val) s = .next (s.raise .tooLarge) ↔ (maxValue : Int) < val.toInt := by
  refine exec_eq_next_answer_iff.trans ?_
  obtain ⟨hneg, h⟩ | ⟨hlarge, h⟩ | ⟨v, hv, hle, h⟩ := answerOf_enc_cases val s.buf
  · have hle : val.toInt ≤ maxValue := by omega
    simpa [h] using hle
  · simpa [h] using hlarge
  · simpa [h, hv] using hle

/-- Bit 31 is the sign bit of two's complement (R8). -/
theorem toInt_neg_iff_getElem_31 (val : Val) : val.toInt < 0 ↔ val[31] = true := by
  rw [show val[31] = val.msb from rfl, BitVec.msb_eq_toInt, decide_eq_true_iff]

/-- Settles O10: a negative value is below `MAXV`. -/
theorem encFailsNegativeExactlyWhenBit31IsSet :
    Obligations.EncFailsNegativeExactlyWhenBit31IsSet := by
  intro val s
  refine ⟨toInt_neg_iff_getElem_31 val, exec_enc_eq_negative_iff, fun hneg => ?_⟩
  have hle : ¬ (maxValue : Int) < val.toInt := by omega
  exact ⟨hle, fun h => hle (exec_enc_eq_tooLarge_iff.mp h)⟩

/-- The fields above `MAXV` are those from `LIMIT` to the greatest with bit 31 clear (R72). -/
theorem maxValue_lt_toInt_iff (val : Val) :
    (maxValue : Int) < val.toInt ↔ 0x40404040 ≤ val.toNat ∧ val.toNat ≤ 0x7FFFFFFF := by
  have hlt := val.isLt
  rw [BitVec.toInt_eq_toNat_cond, maxValue]
  split_ifs <;> omega

/-- Settles O11. -/
theorem encFailsTooLargeExactlyFromLimitOn : Obligations.EncFailsTooLargeExactlyFromLimitOn :=
  fun val _ => ⟨exec_enc_eq_tooLarge_iff, maxValue_lt_toInt_iff val⟩

theorem ofNat_mod_byte (n : Nat) : BitVec.ofNat 8 (n % 2 ^ 8) = BitVec.ofNat 8 n :=
  BitVec.eq_of_toNat_eq (Nat.mod_mod n (2 ^ 8))

section Bytes

variable {val : Val} {o : Nat} (s : State)

theorem exec_enc_band0 (hv : val.toInt = o) (ho : o < 0x40) :
    exec (.enc val) s = .next (s.respond (.encoded 1 [BitVec.ofNat 8 o])) := by
  rw [exec_enc_of_le_maxValue s hv (by rw [maxValue]; omega), packValue_band0 ho,
    bandOfValue_band0 ho]
  rfl

theorem exec_enc_band1 (hv : val.toInt = (o + 0x40 : Int)) (ho : o < 2 ^ 14) :
    exec (.enc val) s = .next (s.respond (.encoded 2
      [BitVec.ofNat 8 (0x40 + o / 2 ^ 8), BitVec.ofNat 8 (o % 2 ^ 8)])) := by
  have hge : 0x40 ≤ o + 0x40 := by omega
  have hlt : o + 0x40 < 0x4040 := by omega
  rw [exec_enc_of_le_maxValue s (v := o + 0x40) hv (by rw [maxValue]; omega),
    packValue_band1 hge hlt, bandOfValue_band1 hge hlt, Nat.add_sub_cancel, ofNat_mod_byte]
  rfl

theorem exec_enc_band2 (hv : val.toInt = (o + 0x4040 : Int)) (ho : o < 2 ^ 22) :
    exec (.enc val) s = .next (s.respond (.encoded 3
      [BitVec.ofNat 8 (0x80 + o / 2 ^ 16), BitVec.ofNat 8 (o / 2 ^ 8 % 2 ^ 8),
        BitVec.ofNat 8 (o % 2 ^ 8)])) := by
  have hge : 0x4040 ≤ o + 0x4040 := by omega
  have hlt : o + 0x4040 < 0x404040 := by omega
  rw [exec_enc_of_le_maxValue s (v := o + 0x4040) hv (by rw [maxValue]; omega),
    packValue_band2 hge hlt, bandOfValue_band2 hge hlt, Nat.add_sub_cancel, ofNat_mod_byte,
    ofNat_mod_byte]
  rfl

theorem exec_enc_band3 (hv : val.toInt = (o + 0x404040 : Int)) (ho : o < 2 ^ 30) :
    exec (.enc val) s = .next (s.respond (.encoded 4
      [BitVec.ofNat 8 (0xC0 + o / 2 ^ 24), BitVec.ofNat 8 (o / 2 ^ 16 % 2 ^ 8),
        BitVec.ofNat 8 (o / 2 ^ 8 % 2 ^ 8), BitVec.ofNat 8 (o % 2 ^ 8)])) := by
  have hge : 0x404040 ≤ o + 0x404040 := by omega
  have hlt : o + 0x404040 < 0x40404040 := by omega
  rw [exec_enc_of_le_maxValue s (v := o + 0x404040) hv (by rw [maxValue]; omega),
    packValue_band3 hge hlt, bandOfValue_band3 hge, Nat.add_sub_cancel, ofNat_mod_byte,
    ofNat_mod_byte, ofNat_mod_byte]
  rfl

end Bytes

/-- Settles O9: the two errors, then the bytes band by band. -/
theorem encAnswersEveryInput : Obligations.EncAnswersEveryInput := fun _ s =>
  ⟨exec_enc_of_neg s, exec_enc_of_maxValue_lt s, fun _ => exec_enc_band0 s,
    fun _ => exec_enc_band1 s, fun _ => exec_enc_band2 s, fun _ => exec_enc_band3 s⟩

end Sys2Proof.Machine

/-! `LEN` answers the length of the band that a first byte announces (R80, R81). -/

namespace Sys2Proof.Machine

theorem exec_len (b0 : Byte) (s : State) :
    exec (.len b0) s = .next (s.respond (.length (lengthField (expectedLength b0)))) := rfl

/-- The shift and mask of R80 leave the tag of a first byte. -/
theorem shift_and_toNat (b : Byte) : ((b >>> 6) &&& 0b11).toNat = (tagBits b).toNat := by
  revert b
  decide

/-- R81 on one band: its number, and `LEN` answers that number plus one. -/
theorem exec_len_of_band {b0 : Byte} {n : Nat} (s : State) (h : b0.toNat / 64 = n) :
    bandIndex (bandOfByte b0) = n ∧
      exec (.len b0) s = .next (s.respond (.length (lengthField (n + 1)))) := by
  rw [bandIndex_bandOfByte, exec_len, expectedLength_eq, h]
  exact ⟨rfl, rfl⟩

theorem exec_len_congr {x y : Byte} (s : State) (h : tagBits x = tagBits y) :
    exec (.len x) s = exec (.len y) s := by
  simp only [exec_len, expectedLength, h]

/-- Settles O16: each quarter of the byte range is one band. -/
theorem lenAnswersTagPlusOne : Obligations.LenAnswersTagPlusOne := by
  refine ⟨fun b0 s => ⟨?_, fun hle => ?_, fun hge hle => ?_, fun hge hle => ?_, fun hge => ?_⟩,
    fun _ _ => exec_len_congr⟩
  · rw [shift_and_toNat]
    exact exec_len b0 s
  · exact exec_len_of_band (n := 0) s (by omega)
  · exact exec_len_of_band (n := 1) s (by omega)
  · exact exec_len_of_band (n := 2) s (by omega)
  · exact exec_len_of_band (n := 3) s (by have := b0.isLt; omega)

end Sys2Proof.Machine

/-! `DEC`: its three ways to answer, the value of each length by the lanes, and what it does not read
(R90 to R92, R95). `exec_dec_of_length_ne` is the mismatch of R92. -/

namespace Sys2Proof.Machine

section Dec

variable {n : Nat} {b0 b1 b2 b3 : Byte} {s : State}

/-- R91. -/
theorem exec_dec_zero (b0 b1 b2 b3 : Byte) (s : State) :
    exec (.dec 0 b0 b1 b2 b3) s = .next (s.raise .emptyInput) := rfl

/-- R90 on a sequence of the length that its first byte announces. -/
theorem exec_dec_expectedLength (b0 b1 b2 b3 : Byte) (s : State) :
    exec (.dec (expectedLength b0) b0 b1 b2 b3) s =
      .next (s.respond (.value (packedValue b0 ([b1, b2, b3].take (expectedLength b0 - 1))))) := by
  change execDec _ _ _ _ _ _ = _
  rw [execDec, if_neg (Nat.ne_of_gt (expectedLength_pos b0)), if_neg (not_not.mpr rfl)]

/-- R92: neither of the two other answers of `DEC` is a mismatch. -/
theorem exec_dec_eq_lengthMismatch_iff :
    exec (.dec n b0 b1 b2 b3) s = .next (s.raise .lengthMismatch) ↔
      1 ≤ n ∧ n ≠ expectedLength b0 := by
  constructor
  · intro h
    refine ⟨Nat.one_le_iff_ne_zero.mpr ?_, ?_⟩
    · rintro rfl
      cases respond_inj (Host.Outcome.next.inj ((exec_dec_zero b0 b1 b2 b3 s).symm.trans h))
    · rintro rfl
      cases respond_inj
        (Host.Outcome.next.inj ((exec_dec_expectedLength b0 b1 b2 b3 s).symm.trans h))
  · rintro ⟨hn, hlen⟩
    exact exec_dec_of_length_ne b1 b2 b3 s (Nat.one_le_iff_ne_zero.mp hn) hlen

end Dec

/-- Settles O20: the length is tested before any lane is looked at. -/
theorem decOfNothingIsEmptyInput : Obligations.DecOfNothingIsEmptyInput := exec_dec_zero

/-- Settles O21. -/
theorem decFailsMismatchExactlyWhenLengthsDiffer :
    Obligations.DecFailsMismatchExactlyWhenLengthsDiffer :=
  fun _ _ _ _ _ _ => exec_dec_eq_lengthMismatch_iff

section DecValue

variable {b0 : Byte} (b1 b2 b3 : Byte) (s : State)

/-- R90 on a first byte of tag `t`: the value of that byte and the `t` lanes behind it. -/
theorem exec_dec_of_tag {t : Nat} (h : b0.toNat / 64 = t) :
    exec (.dec (t + 1) b0 b1 b2 b3) s =
      .next (s.respond (.value (packedValue b0 ([b1, b2, b3].take t)))) := by
  have hlen : t + 1 = expectedLength b0 := by rw [expectedLength_eq, h]
  rw [hlen, exec_dec_expectedLength, ← hlen, Nat.add_sub_cancel]

theorem exec_dec_one (h : b0.toNat / 64 = 0) :
    exec (.dec 1 b0 b1 b2 b3) s =
      .next (s.respond (.value (BitVec.ofNat 32 (b0.toNat % 64)))) := by
  rw [← packedValue_one h]
  exact exec_dec_of_tag b1 b2 b3 s h

theorem exec_dec_two (h : b0.toNat / 64 = 1) :
    exec (.dec 2 b0 b1 b2 b3) s =
      .next (s.respond (.value (BitVec.ofNat 32 (b0.toNat % 64 * 2 ^ 8 + b1.toNat + 0x40)))) :=
  packedValue_two b1 h ▸ exec_dec_of_tag b1 b2 b3 s h

theorem exec_dec_three (h : b0.toNat / 64 = 2) :
    exec (.dec 3 b0 b1 b2 b3) s =
      .next (s.respond (.value (BitVec.ofNat 32
        (b0.toNat % 64 * 2 ^ 16 + b1.toNat * 2 ^ 8 + b2.toNat + 0x4040)))) := by
  have hoffset : b0.toNat % 64 * 2 ^ 16 + b1.toNat * 2 ^ 8 + b2.toNat =
      (b0.toNat % 64 * 256 + b1.toNat) * 256 + b2.toNat := by omega
  rw [hoffset, ← packedValue_three b1 b2 h]
  exact exec_dec_of_tag b1 b2 b3 s h

theorem exec_dec_four (h : b0.toNat / 64 = 3) :
    exec (.dec 4 b0 b1 b2 b3) s =
      .next (s.respond (.value (BitVec.ofNat 32
        (b0.toNat % 64 * 2 ^ 24 + b1.toNat * 2 ^ 16 + b2.toNat * 2 ^ 8 + b3.toNat +
          0x404040)))) := by
  have hoffset : b0.toNat % 64 * 2 ^ 24 + b1.toNat * 2 ^ 16 + b2.toNat * 2 ^ 8 + b3.toNat =
      ((b0.toNat % 64 * 256 + b1.toNat) * 256 + b2.toNat) * 256 + b3.toNat := by omega
  rw [hoffset, ← packedValue_four b1 b2 b3 h]
  exact exec_dec_of_tag b1 b2 b3 s h

end DecValue

/-- Settles O19: the two errors, then the value length by length. -/
theorem decAnswersEveryInput : Obligations.DecAnswersEveryInput := by
  intro n b0 b1 b2 b3 s
  refine ⟨?_, fun hn hlen => ?_, ?_, ?_, ?_, ?_⟩
  · rintro rfl
    exact exec_dec_zero b0 b1 b2 b3 s
  · rw [← expectedLength_eq] at hlen
    exact exec_dec_of_length_ne b1 b2 b3 s hn hlen.symm
  · rintro rfl
    exact exec_dec_one b1 b2 b3 s
  · rintro rfl
    exact exec_dec_two b1 b2 b3 s
  · rintro rfl
    exact exec_dec_three b1 b2 b3 s
  · rintro rfl
    exact exec_dec_four b1 b2 b3 s

section Lanes

variable {n : Nat} {b0 b1 b2 b3 c0 c1 c2 c3 : Byte}

/-- R95 (b): `DEC` of `n` bytes depends on its first `n` lanes only. -/
theorem exec_dec_congr_take (s : State)
    (h : [b0, b1, b2, b3].take n = [c0, c1, c2, c3].take n) :
    exec (.dec n b0 b1 b2 b3) s = exec (.dec n c0 c1 c2 c3) s := by
  cases n with
  | zero => rfl
  | succ k =>
    obtain ⟨rfl, hrest⟩ := List.cons_eq_cons.mp h
    by_cases hlen : k + 1 = expectedLength b0
    · have htag : b0.toNat / 64 = k := by
        rw [expectedLength_eq] at hlen
        omega
      rw [exec_dec_of_tag b1 b2 b3 s htag, exec_dec_of_tag c1 c2 c3 s htag, hrest]
    · have hne := Nat.succ_ne_zero k
      rw [exec_dec_of_length_ne b1 b2 b3 s hne hlen, exec_dec_of_length_ne c1 c2 c3 s hne hlen]

/-- Lanes that agree below `n` hold the same first `n` bytes. -/
theorem take_eq_take_of_getElem? {p q : List Byte} (h : ∀ k, k < n → p[k]? = q[k]?) :
    p.take n = q.take n := by
  refine List.ext_getElem? fun k => ?_
  rw [List.getElem?_take, List.getElem?_take]
  split_ifs with hk
  · exact h k hk
  · rfl

end Lanes

/-- Settles O22: no first byte announces more than 4 bytes, the lanes from `n` on are not read, and a
mismatch is told from `n` and the tag of lane 0. -/
theorem decIgnoresWhatTheSequenceDoesNotHold :
    Obligations.DecIgnoresWhatTheSequenceDoesNotHold := by
  refine ⟨fun n b0 b1 b2 b3 s hn => ?_, fun n b0 b1 b2 b3 c0 c1 c2 c3 s hlanes => ?_,
    fun n b0 b1 b2 b3 c0 c1 c2 c3 s hmismatch htag => ?_⟩
  · have hle := expectedLength_le b0
    exact exec_dec_of_length_ne b1 b2 b3 s (by omega) (by omega)
  · exact exec_dec_congr_take s (take_eq_take_of_getElem? hlanes)
  · have hlen : expectedLength b0 = expectedLength c0 := congrArg (·.toNat + 1) htag
    exact exec_dec_eq_lengthMismatch_iff.mpr (hlen ▸ exec_dec_eq_lengthMismatch_iff.mp hmismatch)

end Sys2Proof.Machine

/-! A byte sequence in BUF (R30, R57): its first byte stands at its index and the others behind it. -/

namespace Sys2Proof.Machine

/-- R57, with the expected length as a number. -/
theorem isPacked_cons_iff {first : Byte} {rest : List Byte} :
    IsPacked (first :: rest) ↔ rest.length = first.toNat / 64 := by
  rw [← Nat.add_right_cancel_iff (n := 1), ← List.length_cons (a := first), ← expectedLength_eq]
  constructor
  · rintro ⟨_, _, ⟨⟩, hlen⟩
    exact hlen
  · exact fun hlen => ⟨first, rest, rfl, hlen⟩

section InBuf

variable {first : Byte} {rest p : List Byte} {start : Nat} {s : State}

theorem inBuf_nil : InBuf [] start s := fun _ _ h => by simp at h

theorem inBuf_cons_iff :
    InBuf (first :: rest) start s ↔ s.bufByte start = some first ∧ InBuf rest (start + 1) s := by
  constructor
  · refine fun h => ⟨h 0 first rfl, fun k x hx => ?_⟩
    rw [Nat.add_right_comm]
    exact h (k + 1) x hx
  · rintro ⟨hfirst, hrest⟩ (_ | k) x hx
    · cases hx
      exact hfirst
    · rw [← Nat.add_assoc, Nat.add_right_comm]
      exact hrest k x hx

/-- A sequence from index 0 on is a BUF of its length (R30). -/
theorem InBuf.bufReadable (h : InBuf p 0 s) : BufReadable p.length s := by
  intro a ha
  have hbyte := h a p[a] (List.getElem?_eq_getElem ha)
  rw [Nat.zero_add] at hbyte
  exact ⟨p[a], hbyte⟩

end InBuf

theorem bufReadable_zero (s : State) : BufReadable 0 s := fun _ h => absurd h (Nat.not_lt_zero _)

end Sys2Proof.Machine

/-! `DECAT`: when it is too short and when it answers a value, its one error, and the sub-range on which
it is `DEC` (R100 to R107). -/

namespace Sys2Proof.Machine

section Decat

variable {start bufLen : Nat} {first : Byte} {s : State}

/-- R156; log 5. -/
theorem exec_decat_of_not_bufReadable (h : ¬ BufReadable bufLen s) :
    exec (.decat start bufLen) s = .next s.leaveUnspecified :=
  exec_eq_next_answer_iff.mpr (answerOf_decat_eq_unspecified_iff.mpr h)

/-- R102: a packed value that ends at or before the end of BUF is accepted. -/
theorem exists_exec_decat_eq_value (hr : BufReadable bufLen s) (hfirst : s.bufByte start = some first)
    (hfits : start + expectedLength first ≤ bufLen) :
    ∃ val, exec (.decat start bufLen) s = .next (s.respond (.value val)) := by
  have hpos := expectedLength_pos first
  obtain ⟨hn, -⟩ | ⟨-, hend, -⟩ | ⟨x, -, -, hx, hoff, -⟩ | ⟨x, rest, -, -, -, -, -, h⟩ :=
    execDecat_cases start bufLen s
  · exact absurd hr hn
  · omega
  · cases hx.symm.trans hfirst
    omega
  · exact ⟨_, h⟩

/-- R102: with a first byte in BUF, `DECAT` is too short exactly when the packed value does not fit. -/
theorem exec_decat_eq_bufferTooShort_iff (hr : BufReadable bufLen s) (hstart : start < bufLen)
    (hfirst : s.bufByte start = some first) :
    exec (.decat start bufLen) s = .next (s.raise .bufferTooShort) ↔
      bufLen < start + expectedLength first := by
  refine ⟨fun h => ?_, exec_decat_of_runs_off hr hstart hfirst⟩
  by_contra hfits
  obtain ⟨val, hval⟩ := exists_exec_decat_eq_value hr hfirst (not_lt.mp hfits)
  cases respond_inj (Host.Outcome.next.inj (h.symm.trans hval))

/-- R105: of the four ways in which `DECAT` completes, the two with an error have the same one. -/
theorem eq_bufferTooShort_of_exec_decat_eq_raise {k : ErrorKind}
    (h : exec (.decat start bufLen) s = .next (s.raise k)) : k = .bufferTooShort := by
  have hanswer {x : Answer} (hx : execDecat start bufLen s = .next (s.answer x)) :
      x = .response (.error k) := answer_inj (Host.Outcome.next.inj (hx.symm.trans h))
  obtain ⟨-, hx⟩ | ⟨-, -, hx⟩ | ⟨_, -, -, -, -, hx⟩ | ⟨_, _, -, -, -, -, -, hx⟩ :=
    execDecat_cases start bufLen s
  · cases hanswer hx
  · cases hanswer hx
    rfl
  · cases hanswer hx
    rfl
  · cases hanswer hx

/-- R100 on a well-formed packed value in BUF. -/
theorem exec_decat_of_isPacked {rest : List Byte} (hr : BufReadable bufLen s)
    (hp : IsPacked (first :: rest)) (hbuf : InBuf (first :: rest) start s)
    (hfits : start + (first :: rest).length ≤ bufLen) :
    exec (.decat start bufLen) s = .next (s.respond (.value (packedValue first rest))) := by
  obtain ⟨_, _, ⟨⟩, hlen⟩ := hp
  obtain ⟨hfirst, hrest⟩ := inBuf_cons_iff.mp hbuf
  exact exec_decat_of_fits hr hfirst (hlen ▸ hfits) hlen hrest

/-- R107: on its sub-range `DECAT` has the answer of `DEC`, which reads no BUF. -/
theorem answerOf_decat_eq_dec {p : List Byte} {b0 b1 b2 b3 : Byte} (m : Memory)
    (hr : BufReadable bufLen s) (hp : IsPacked p) (hbuf : InBuf p start s)
    (hlanes : InLanes p b0 b1 b2 b3) (hfits : start + p.length ≤ bufLen) :
    answerOf (.decat start bufLen) s.buf = answerOf (.dec p.length b0 b1 b2 b3) m := by
  obtain ⟨first, rest, rfl, hlen⟩ := hp
  have hdecat := exec_decat_of_isPacked hr ⟨first, rest, rfl, hlen⟩ hbuf hfits
  have hdec := exec_dec_of_isPacked ⟨[], m, []⟩ ⟨first, rest, rfl, hlen⟩ hlanes
  exact (exec_eq_next_answer_iff.mp hdecat).trans (exec_eq_next_answer_iff.mp hdec).symm

/-- R107, with the first byte's `t` further bytes in the lanes behind it. -/
theorem exec_decat_eq_exec_dec {t : Nat} {b1 b2 b3 : Byte} (hr : BufReadable bufLen s)
    (htag : first.toNat / 64 = t) (hbuf : InBuf (first :: [b1, b2, b3].take t) start s)
    (hfits : start + (t + 1) ≤ bufLen) :
    exec (.decat start bufLen) s = exec (.dec (t + 1) first b1 b2 b3) s := by
  have hlen : ([b1, b2, b3].take t).length = t := by
    rw [List.length_take_of_le]
    have := first.isLt
    simp only [List.length_cons, List.length_nil]
    omega
  have hp : IsPacked (first :: [b1, b2, b3].take t) := isPacked_cons_iff.mpr (hlen.trans htag.symm)
  rw [exec_dec_of_tag b1 b2 b3 s htag]
  exact exec_decat_of_isPacked hr hp hbuf (by rwa [List.length_cons, hlen])

end Decat

/-- Settles O23: left unspecified over a BUF cut short, too short by R101 and R102, else the value that
`DEC` has for the bytes in its lanes; the lanes that a shorter format leaves unread are given zeros. -/
theorem decatAnswersEveryInput : Obligations.DecatAnswersEveryInput := by
  refine fun start bufLen s => ⟨exec_decat_of_not_bufReadable, fun hr =>
    ⟨exec_decat_of_le_start hr, fun x0 hstart h0 hoff => ?_, fun x0 h0 htag hfits => ?_,
      fun x0 x1 h0 h1 htag hfits => ?_, fun x0 x1 x2 h0 h1 h2 htag hfits => ?_,
      fun x0 x1 x2 x3 h0 h1 h2 h3 htag hfits => ?_⟩⟩
  · rw [← expectedLength_eq] at hoff
    exact exec_decat_of_runs_off hr hstart h0 hoff
  · have hbuf : InBuf [x0] start s := inBuf_cons_iff.mpr ⟨h0, inBuf_nil⟩
    exact (exec_decat_eq_exec_dec hr htag hbuf hfits).trans (exec_dec_one 0 0 0 s htag)
  · have hbuf : InBuf [x0, x1] start s := inBuf_cons_iff.mpr ⟨h0, inBuf_cons_iff.mpr ⟨h1, inBuf_nil⟩⟩
    exact (exec_decat_eq_exec_dec hr htag hbuf hfits).trans (exec_dec_two x1 0 0 s htag)
  · have hbuf : InBuf [x0, x1, x2] start s := inBuf_cons_iff.mpr
      ⟨h0, inBuf_cons_iff.mpr ⟨h1, inBuf_cons_iff.mpr ⟨h2, inBuf_nil⟩⟩⟩
    exact (exec_decat_eq_exec_dec hr htag hbuf hfits).trans (exec_dec_three x1 x2 0 s htag)
  · have hbuf : InBuf [x0, x1, x2, x3] start s := inBuf_cons_iff.mpr
      ⟨h0, inBuf_cons_iff.mpr ⟨h1, inBuf_cons_iff.mpr ⟨h2, inBuf_cons_iff.mpr ⟨h3, inBuf_nil⟩⟩⟩⟩
    exact (exec_decat_eq_exec_dec hr htag hbuf hfits).trans (exec_dec_four x1 x2 x3 s htag)

/-- Settles O25. -/
theorem decatFailsExactlyWhenTheValueRunsOffTheEnd :
    Obligations.DecatFailsExactlyWhenTheValueRunsOffTheEnd := fun _ _ _ _ hr hstart hfirst =>
  ⟨exec_decat_eq_bufferTooShort_iff hr hstart hfirst, by omega, exists_exec_decat_eq_value hr hfirst⟩

/-- Settles O27: one answer on the sub-range; nothing, too few bytes and too many are an error each of
`DEC`, where `DECAT` is too short twice and ignores the tail. -/
theorem decatIsDecOnItsSubrange : Obligations.DecatIsDecOnItsSubrange := by
  refine ⟨fun start bufLen p b0 b1 b2 b3 r s t hr hp hbuf hlanes hfits => ?_,
    fun b0 b1 b2 b3 s t => ⟨exec_dec_zero b0 b1 b2 b3 t,
      exec_decat_of_le_start (bufReadable_zero s) le_rfl⟩,
    fun first rest b1 b2 b3 s t hbuf => ?_⟩
  · calc
      _ ↔ answerOf (.decat start bufLen) s.buf = .response r := exec_eq_next_answer_iff
      _ ↔ answerOf (.dec p.length b0 b1 b2 b3) t.buf = .response r := by
        rw [answerOf_decat_eq_dec t.buf hr hp hbuf hlanes hfits]
      _ ↔ _ := exec_eq_next_answer_iff.symm
  · have hr := hbuf.bufReadable
    have hfirst := (inBuf_cons_iff.mp hbuf).1
    have hne : (first :: rest).length ≠ 0 := Nat.succ_ne_zero _
    rw [← expectedLength_eq]
    refine ⟨fun hshort => ⟨exec_dec_of_length_ne b1 b2 b3 t hne hshort.ne, ?_⟩,
      fun hlong => ⟨exec_dec_of_length_ne b1 b2 b3 t hne hlong.ne', ?_⟩⟩
    · exact exec_decat_of_runs_off hr (Nat.pos_of_ne_zero hne) hfirst (by rwa [Nat.zero_add])
    · exact exists_exec_decat_eq_value hr hfirst (by rw [Nat.zero_add]; exact hlong.le)

/-- Settles O29. -/
theorem decatAnswersNoErrorOfDec : Obligations.DecatAnswersNoErrorOfDec := by
  intro start bufLen s k h
  cases eq_bufferTooShort_of_exec_decat_eq_raise h
  exact ⟨nofun, nofun, rfl⟩

/-- Settles O24: a BUF of no bytes is readable whatever it holds. -/
theorem decatPastTheEndReadsNothing : Obligations.DecatPastTheEndReadsNothing :=
  ⟨fun _ _ _ _ hend hr => exec_decat_of_le_start hr hend,
    fun start _ _ => exec_decat_of_le_start (bufReadable_zero _) (Nat.zero_le start)⟩

end Sys2Proof.Machine

/-! The offset of a packed value read most significant byte first: it determines its bytes, and orders
them as numbers are ordered (R54, R116). -/

namespace Sys2Proof.Machine

/-- The lexicographic order of bytes compared as unsigned numbers (R116). -/
abbrev LexBefore (p q : List Byte) : Prop := List.Lex (fun x y : Byte => x.toNat < y.toNat) p q

/-- The offset that the bytes behind the first add to, from the bits `o` already read (R54). -/
def offsetFrom (o : Nat) (rest : List Byte) : Nat := rest.foldl (fun o x => (o <<< 8) ||| x.toNat) o

theorem offsetOf_cons (first : Byte) (rest : List Byte) :
    offsetOf (first :: rest) = offsetFrom (lowBits first).toNat rest := rfl

theorem offsetFrom_cons (o : Nat) (x : Byte) (rest : List Byte) :
    offsetFrom o (x :: rest) = offsetFrom (o * 256 + x.toNat) rest := by
  rw [← shift_or_byte]
  rfl

/-- Equally many bytes give the same number only from the same bytes. -/
theorem offsetFrom_inj {o o' : Nat} {xs ys : List Byte} (hlen : xs.length = ys.length)
    (h : offsetFrom o xs = offsetFrom o' ys) : o = o' ∧ xs = ys := by
  induction xs generalizing o o' ys with
  | nil =>
    cases List.length_eq_zero_iff.mp hlen.symm
    exact ⟨h, rfl⟩
  | cons x xs ih =>
    cases ys with
    | nil => cases hlen
    | cons y ys =>
      rw [offsetFrom_cons, offsetFrom_cons] at h
      obtain ⟨hnum, rfl⟩ := ih (Nat.succ.inj hlen) h
      have hx := x.isLt
      have hy := y.isLt
      have hxy : x = y := BitVec.eq_of_toNat_eq (by omega)
      exact ⟨by omega, by rw [hxy]⟩

/-- Of equally many bytes, a smaller number comes from fewer bits before them, or from bytes that come
first. -/
theorem lexBefore_of_offsetFrom_lt {o o' : Nat} {xs ys : List Byte} (hlen : xs.length = ys.length)
    (h : offsetFrom o xs < offsetFrom o' ys) : o < o' ∨ o = o' ∧ LexBefore xs ys := by
  induction xs generalizing o o' ys with
  | nil =>
    cases List.length_eq_zero_iff.mp hlen.symm
    exact .inl h
  | cons x xs ih =>
    cases ys with
    | nil => cases hlen
    | cons y ys =>
      rw [offsetFrom_cons, offsetFrom_cons] at h
      have hx := x.isLt
      have hy := y.isLt
      obtain hlt | ⟨hnum, hlex⟩ := ih (Nat.succ.inj hlen) h
      · by_cases ho : o < o'
        · exact .inl ho
        · exact .inr ⟨by omega, .rel (by omega)⟩
      · have hxy : x = y := BitVec.eq_of_toNat_eq (by omega)
        exact .inr ⟨by omega, hxy ▸ .cons hlex⟩

end Sys2Proof.Machine

/-! The well-formed packed value of a value: there is exactly one of each value up to `MAXV`, and it
comes before those of greater values (R55, R56, R116). -/

namespace Sys2Proof.Machine

/-- `p` is a well-formed packed value (R57) and `val` is its value (R55). -/
def HasValue (p : List Byte) (val : Val) : Prop :=
  ∃ first rest, p = first :: rest ∧ IsPacked (first :: rest) ∧ packedValue first rest = val

theorem IsPacked.exists_hasValue {p : List Byte} (h : IsPacked p) : ∃ val, HasValue p val := by
  obtain ⟨first, rest, rfl, hlen⟩ := h
  exact ⟨_, first, rest, rfl, ⟨first, rest, rfl, hlen⟩, rfl⟩

theorem HasValue.unique {p : List Byte} {v w : Val} (hv : HasValue p v) (hw : HasValue p w) :
    v = w := by
  obtain ⟨first, rest, rfl, -, rfl⟩ := hv
  obtain ⟨_, _, ⟨⟩, -, rfl⟩ := hw
  rfl

theorem HasValue.isPacked {p : List Byte} {val : Val} (h : HasValue p val) : IsPacked p := by
  obtain ⟨first, rest, rfl, hp, -⟩ := h
  exact hp

theorem HasValue.toNat_le_maxValue {p : List Byte} {val : Val} (h : HasValue p val) :
    val.toNat ≤ maxValue := by
  obtain ⟨first, rest, rfl, ⟨_, _, ⟨⟩, hlen⟩, rfl⟩ := h
  exact packedValue_le_maxValue hlen

section PackedValue

variable {x y : Byte} {xs ys : List Byte}

/-- R55 without wrap. -/
theorem packedValue_toNat (hp : IsPacked (x :: xs)) :
    (packedValue x xs).toNat = offsetFrom (lowBits x).toNat xs + bandBase (bandOfByte x) := by
  rw [packedValue, bandValue_toNat (offsetOf_lt hp), offsetOf_cons]

/-- The band that the first byte announces is the band of the value (R51, R73). -/
theorem bandOfValue_packedValue (hp : IsPacked (x :: xs)) :
    bandOfValue (packedValue x xs).toNat = bandOfByte x := by
  obtain ⟨hge, hle⟩ := bandValue_mem_band (offsetOf_lt hp)
  refine bandOfValue_eq_of_mem_band hge ?_
  rwa [Nat.add_sub_assoc Nat.one_le_two_pow]

/-- No two well-formed packed values have one value (R112): the value gives the band, which is the tag
and the number of bytes, and the offset, which is the other bits. -/
theorem packedValue_inj (hx : IsPacked (x :: xs)) (hy : IsPacked (y :: ys))
    (h : packedValue x xs = packedValue y ys) : x :: xs = y :: ys := by
  have hband : bandOfByte x = bandOfByte y := by
    rw [← bandOfValue_packedValue hx, h, bandOfValue_packedValue hy]
  have htag : x.toNat / 64 = y.toNat / 64 := by
    rw [← bandIndex_bandOfByte, hband, bandIndex_bandOfByte]
  have hlen : xs.length = ys.length := by
    rw [isPacked_cons_iff.mp hx, htag, isPacked_cons_iff.mp hy]
  have hoffset : offsetFrom (lowBits x).toNat xs = offsetFrom (lowBits y).toNat ys := by
    have hnat := congrArg BitVec.toNat h
    rw [packedValue_toNat hx, packedValue_toNat hy, hband] at hnat
    exact Nat.add_right_cancel hnat
  obtain ⟨hlow, rfl⟩ := offsetFrom_inj hlen hoffset
  rw [lowBits_toNat, lowBits_toNat] at hlow
  rw [BitVec.eq_of_toNat_eq (show x.toNat = y.toNat by omega)]

/-- A greater value is in no lower band. -/
theorem bandIndex_bandOfValue_le {v w : Nat} (h : v ≤ w) :
    bandIndex (bandOfValue v) ≤ bandIndex (bandOfValue w) := by
  rw [bandIndex_bandOfValue, bandIndex_bandOfValue]
  split_ifs <;> omega

/-- R116: of two values in one band the offsets decide, in two bands the tags. -/
theorem lexBefore_of_packedValue_lt (hx : IsPacked (x :: xs)) (hy : IsPacked (y :: ys))
    (h : (packedValue x xs).toNat < (packedValue y ys).toNat) :
    xs.length ≤ ys.length ∧ LexBefore (x :: xs) (y :: ys) := by
  have htag : x.toNat / 64 ≤ y.toNat / 64 := by
    rw [← bandIndex_bandOfByte, ← bandIndex_bandOfByte, ← bandOfValue_packedValue hx,
      ← bandOfValue_packedValue hy]
    exact bandIndex_bandOfValue_le h.le
  have hxlen := isPacked_cons_iff.mp hx
  have hylen := isPacked_cons_iff.mp hy
  refine ⟨by omega, ?_⟩
  obtain hlt | heq := htag.lt_or_eq
  · exact .rel (by omega)
  · have hband : bandOfByte x = bandOfByte y := bandOfByte_eq (by rw [bandIndex_bandOfByte, heq])
    rw [packedValue_toNat hx, packedValue_toNat hy, hband] at h
    have hoffset := Nat.lt_of_add_lt_add_right h
    obtain hlow | ⟨hlow, hlex⟩ := lexBefore_of_offsetFrom_lt (by omega) hoffset <;>
      rw [lowBits_toNat, lowBits_toNat] at hlow
    · exact .rel (by omega)
    · have hxy : x = y := BitVec.eq_of_toNat_eq (by omega)
      exact hxy ▸ .cons hlex

end PackedValue

theorem HasValue.inj {p q : List Byte} {val : Val} (hp : HasValue p val) (hq : HasValue q val) :
    p = q := by
  obtain ⟨x, xs, rfl, hx, hval⟩ := hp
  obtain ⟨y, ys, rfl, hy, rfl⟩ := hq
  exact packedValue_inj hx hy hval

theorem HasValue.lexBefore_of_lt {p q : List Byte} {v w : Val} (hp : HasValue p v) (hq : HasValue q w)
    (h : v.toNat < w.toNat) : p.length ≤ q.length ∧ LexBefore p q := by
  obtain ⟨x, xs, rfl, hx, rfl⟩ := hp
  obtain ⟨y, ys, rfl, hy, rfl⟩ := hq
  obtain ⟨hlen, hlex⟩ := lexBefore_of_packedValue_lt hx hy h
  exact ⟨Nat.succ_le_succ hlen, hlex⟩

/-- The bytes of R56 have the value that R55 reads from them. -/
theorem packedValue_of_packValue_eq {v : Nat} {first : Byte} {rest : List Byte} (h : v ≤ maxValue)
    (hp : packValue v = first :: rest) : packedValue first rest = BitVec.ofNat 32 v := by
  change v ≤ 0x4040403F at h
  by_cases h0 : v < 0x40
  · cases (packValue_band0 h0).symm.trans hp
    refine (packedValue_one ?_).trans (congrArg _ ?_) <;>
      simp only [BitVec.toNat_ofNat] <;> omega
  by_cases h1 : v < 0x4040
  · cases (packValue_band1 (by omega) h1).symm.trans hp
    refine (packedValue_two _ ?_).trans (congrArg _ ?_) <;>
      simp only [BitVec.toNat_ofNat] <;> omega
  by_cases h2 : v < 0x404040
  · cases (packValue_band2 (by omega) h2).symm.trans hp
    refine (packedValue_three _ _ ?_).trans (congrArg _ ?_) <;>
      simp only [BitVec.toNat_ofNat] <;> omega
  · cases (packValue_band3 (by omega) (by omega)).symm.trans hp
    refine (packedValue_four _ _ _ ?_).trans (congrArg _ ?_) <;>
      simp only [BitVec.toNat_ofNat] <;> omega

theorem eq_ofNat_of_toInt_eq {val : Val} {v : Nat} (h : val.toInt = v) : val = BitVec.ofNat 32 v := by
  rw [← BitVec.ofInt_natCast, ← h, BitVec.ofInt_toInt]

/-- R56 gives every value of the domain a packed value. -/
theorem hasValue_packValue {val : Val} {v : Nat} (hv : val.toInt = v) (h : v ≤ maxValue) :
    HasValue (packValue v) val := by
  obtain ⟨first, rest, hp, hlen⟩ := packValue_isPacked h
  rw [eq_ofNat_of_toInt_eq hv]
  exact ⟨first, rest, hp, ⟨first, rest, rfl, hp ▸ hlen⟩, packedValue_of_packValue_eq h hp⟩

end Sys2Proof.Machine

/-! `ENC` answers the packed value of its operand, and `DEC` and `DECAT` answer the value of a packed
value (R110, R112, R113, R116). -/

namespace Sys2Proof.Machine

section RoundTrip

variable {val : Val} {n : Bits3} {p : List Byte} {s : State}

/-- No value up to `MAXV` has bit 31 set. -/
theorem toInt_eq_toNat_of_le_maxValue (h : val.toNat ≤ maxValue) : val.toInt = val.toNat :=
  BitVec.toInt_eq_toNat_of_lt (by rw [maxValue] at h; omega)

theorem exists_hasValue (h0 : 0 ≤ val.toInt) (hmax : val.toInt ≤ maxValue) :
    ∃ p, HasValue p val := by
  obtain ⟨v, hv⟩ := Int.eq_ofNat_of_zero_le h0
  exact ⟨_, hasValue_packValue hv (by omega)⟩

/-- `ENC` answers the packed value of its operand with its length, and no other bytes (R56, R74). -/
theorem exec_enc_eq_encoded_iff :
    exec (.enc val) s = .next (s.respond (.encoded n p)) ↔
      HasValue p val ∧ n = lengthField p.length := by
  constructor
  · intro h
    have hanswer : answerOf (.enc val) s.buf = .response (.encoded n p) :=
      exec_eq_next_answer_iff.mp h
    obtain ⟨-, hx⟩ | ⟨-, hx⟩ | ⟨v, hv, hle, hx⟩ := answerOf_enc_cases val s.buf <;>
      cases hx.symm.trans hanswer
    rw [packValue_length]
    exact ⟨hasValue_packValue hv hle, rfl⟩
  · rintro ⟨hp, rfl⟩
    have hle := hp.toNat_le_maxValue
    have hv := toInt_eq_toNat_of_le_maxValue hle
    rw [exec_enc_of_le_maxValue s hv hle, ← packValue_length, (hasValue_packValue hv hle).inj hp]

theorem HasValue.exec_enc (hp : HasValue p val) (s : State) :
    exec (.enc val) s = .next (s.respond (.encoded (lengthField p.length) p)) :=
  exec_enc_eq_encoded_iff.mpr ⟨hp, rfl⟩

variable {b0 b1 b2 b3 : Byte}

/-- R95: the lanes that `p` does not reach may hold any bytes. -/
theorem HasValue.exec_dec (hp : HasValue p val) (hlanes : InLanes p b0 b1 b2 b3) (s : State) :
    exec (.dec p.length b0 b1 b2 b3) s = .next (s.respond (.value val)) := by
  obtain ⟨first, rest, rfl, hpacked, rfl⟩ := hp
  exact exec_dec_of_isPacked s hpacked hlanes

/-- `DEC` answers a value only for the packed value of it (R90 to R92). -/
theorem hasValue_of_exec_dec_eq_value {n : Nat}
    (h : exec (.dec n b0 b1 b2 b3) s = .next (s.respond (.value val))) :
    n ≤ 4 ∧ HasValue ([b0, b1, b2, b3].take n) val := by
  have hanswer {r : Response} (hr : exec (.dec n b0 b1 b2 b3) s = .next (s.respond r)) :
      r = .value val := respond_inj (Host.Outcome.next.inj (hr.symm.trans h))
  by_cases hn : n = 0
  · subst hn
    cases hanswer (exec_dec_zero b0 b1 b2 b3 s)
  by_cases hlen : n = expectedLength b0
  · rw [expectedLength_eq] at hlen
    subst hlen
    cases hanswer (exec_dec_of_tag b1 b2 b3 s rfl)
    have hlt := b0.isLt
    refine ⟨by omega, b0, _, List.take_succ_cons, isPacked_cons_iff.mpr ?_, rfl⟩
    exact List.length_take_of_le (by simp only [List.length_cons, List.length_nil]; omega)
  · cases hanswer (exec_dec_of_length_ne b1 b2 b3 s hn hlen)

theorem HasValue.exec_decat {start bufLen : Nat} (hp : HasValue p val) (hr : BufReadable bufLen s)
    (hbuf : InBuf p start s) (hfits : start + p.length ≤ bufLen) :
    exec (.decat start bufLen) s = .next (s.respond (.value val)) := by
  obtain ⟨first, rest, rfl, hpacked, rfl⟩ := hp
  exact exec_decat_of_isPacked hr hpacked hbuf hfits

/-- A sequence embedded in one that stands in BUF stands there behind what precedes it. -/
theorem InBuf.embedded {pre post : List Byte} (h : InBuf (pre ++ p ++ post) 0 s) :
    InBuf p pre.length s := by
  intro k x hx
  have hk := (List.getElem?_eq_some_iff.mp hx).1
  rw [← Nat.zero_add (pre.length + k)]
  refine h (pre.length + k) x ?_
  rw [List.append_assoc, List.getElem?_append_right (Nat.le_add_right _ _), Nat.add_sub_cancel_left,
    List.getElem?_append_left hk, hx]

end RoundTrip

/-- Settles O13: `ENC` answers the packed value of `val`, for which `DEC` answers `val`. -/
theorem decOfEncIsTheValue : Obligations.DecOfEncIsTheValue := by
  intro val s t h0 hmax
  obtain ⟨p, hp⟩ := exists_hasValue h0 hmax
  exact ⟨_, p, hp.exec_enc s, fun _ _ _ _ hlanes => hp.exec_dec hlanes t⟩

/-- Settles O14: each answer of either tells that the bytes are the packed value of the value, and that
relation is one to one. -/
theorem encOfDecIsTheSequence : Obligations.EncOfDecIsTheSequence := by
  refine ⟨fun n b0 b1 b2 b3 val s t h => ?_, fun v w n p s t hv hw => ?_,
    fun n m b0 b1 b2 b3 c0 c1 c2 c3 val s t hb hc => ?_, fun p b0 b1 b2 b3 s hp hlanes => ?_⟩
  · obtain ⟨hn, hp⟩ := hasValue_of_exec_dec_eq_value h
    refine ⟨hn, exec_enc_eq_encoded_iff.mpr ⟨hp, ?_⟩⟩
    rw [List.length_take_of_le hn, lengthField]
  · obtain ⟨hpv, -⟩ := exec_enc_eq_encoded_iff.mp hv
    obtain ⟨hpw, -⟩ := exec_enc_eq_encoded_iff.mp hw
    exact hpv.unique hpw
  · obtain ⟨hn, hp⟩ := hasValue_of_exec_dec_eq_value hb
    obtain ⟨hm, hq⟩ := hasValue_of_exec_dec_eq_value hc
    have hpq := hp.inj hq
    have hlen := congrArg List.length hpq
    rw [List.length_take_of_le hn, List.length_take_of_le hm] at hlen
    exact ⟨hlen, hpq⟩
  · obtain ⟨val, hval⟩ := hp.exists_hasValue
    exact ⟨val, hval.exec_dec hlanes s⟩

/-- Settles O28: `DECAT` finds the packed value of `val` behind the bytes before it. -/
theorem embeddedEncodingIsDecodedInPlace : Obligations.EmbeddedEncodingIsDecodedInPlace := by
  intro val pre post s t h0 hmax
  obtain ⟨p, hp⟩ := exists_hasValue h0 hmax
  refine ⟨_, p, hp.exec_enc s, fun hbuf => hp.exec_decat hbuf.bufReadable hbuf.embedded ?_⟩
  simp only [List.length_append]
  omega

/-- Settles O15: `ENC` answers the packed values of the two, which are ordered as these are. -/
theorem encodingsAreOrderedAsTheValues : Obligations.EncodingsAreOrderedAsTheValues := by
  intro v w s t h0 hlt hmax
  obtain ⟨p, hp⟩ := exists_hasValue h0 (hlt.le.trans hmax)
  obtain ⟨q, hq⟩ := exists_hasValue (h0.trans hlt.le) hmax
  rw [toInt_eq_toNat_of_le_maxValue hp.toNat_le_maxValue,
    toInt_eq_toNat_of_le_maxValue hq.toNat_le_maxValue, Int.ofNat_lt] at hlt
  exact ⟨_, _, p, q, hp.exec_enc s, hq.exec_enc t, hp.lexBefore_of_lt hq hlt⟩

end Sys2Proof.Machine

/-! The first byte of a packed value tells where it ends (R111, R115). -/

namespace Sys2Proof.Machine

/-- `LEN` of the first byte of a packed value answers the number of its bytes. -/
theorem IsPacked.exec_len {first : Byte} {rest : List Byte} (h : IsPacked (first :: rest))
    (s : State) :
    exec (.len first) s = .next (s.respond (.length (lengthField (first :: rest).length))) := by
  obtain ⟨_, _, ⟨⟩, hlen⟩ := h
  rw [hlen, Machine.exec_len]

theorem IsPacked.length_le_maxLength {p : List Byte} (h : IsPacked p) : p.length ≤ maxLength := by
  obtain ⟨first, rest, rfl, hlen⟩ := h
  exact hlen ▸ expectedLength_le first

/-- `rsp.len` holds the number of bytes (R13). -/
theorem IsPacked.lengthField_toNat {p : List Byte} (h : IsPacked p) :
    (lengthField p.length).toNat = p.length := Machine.lengthField_toNat h.length_le_maxLength

/-- Two packed values that begin one sequence have the same first byte, so the same length. -/
theorem IsPacked.append_inj {p q a b : List Byte} (hp : IsPacked p) (hq : IsPacked q)
    (h : p ++ a = q ++ b) : p = q ∧ a = b := by
  refine List.append_inj h ?_
  obtain ⟨first, rest, rfl, hplen⟩ := hp
  obtain ⟨_, _, rfl, hqlen⟩ := hq
  obtain ⟨rfl, -⟩ := List.cons_eq_cons.mp h
  rw [hplen, hqlen]

/-- No packed value is empty, so neither is a concatenation that has one. -/
theorem IsPacked.nil_ne_append {p a : List Byte} (hp : IsPacked p) : [] ≠ p ++ a := by
  obtain ⟨first, rest, rfl, -⟩ := hp
  exact nofun

theorem flatten_inj_of_isPacked {ps qs : List (List Byte)} (hps : ∀ p ∈ ps, IsPacked p)
    (hqs : ∀ q ∈ qs, IsPacked q) (h : ps.flatten = qs.flatten) : ps = qs := by
  induction ps generalizing qs with
  | nil =>
    cases qs with
    | nil => rfl
    | cons q qs => exact absurd h (hqs q List.mem_cons_self).nil_ne_append
  | cons p ps ih =>
    obtain ⟨hp, hps'⟩ := List.forall_mem_cons.mp hps
    cases qs with
    | nil => exact absurd h.symm hp.nil_ne_append
    | cons q qs =>
      obtain ⟨hq, hqs'⟩ := List.forall_mem_cons.mp hqs
      obtain ⟨rfl, hflatten⟩ := hp.append_inj hq h
      rw [ih hps' hqs' hflatten]

/-- Settles O12: the bytes that `ENC` answers are a packed value. -/
theorem lenOfFirstByteIsTheEncodedLength : Obligations.LenOfFirstByteIsTheEncodedLength := by
  intro val s t n p h
  obtain ⟨hp, rfl⟩ := exec_enc_eq_encoded_iff.mp h
  refine ⟨hp.isPacked.lengthField_toNat, ?_⟩
  obtain ⟨first, rest, rfl, hpacked, -⟩ := hp
  exact ⟨first, rest, rfl, hpacked.exec_len t⟩

/-- Settles O6: of two packed values of which one begins the other, neither leaves a rest; lists of them
agree one by one from the left; and `LEN` tells how many bytes to take. -/
theorem concatenatedPackedValuesSplitInOneWay :
    Obligations.ConcatenatedPackedValuesSplitInOneWay := by
  refine ⟨?_, fun _ _ => flatten_inj_of_isPacked, fun p rest s hp => ?_⟩
  · rintro p q hp hq ⟨tail, htail⟩
    rw [← List.append_nil q] at htail
    exact (hp.append_inj hq htail).1
  · have hpacked := hp
    have hlen := hp.lengthField_toNat
    obtain ⟨first, bytes, rfl, -⟩ := hp
    exact ⟨first, _, rfl, hpacked.exec_len s, List.take_left' hlen.symm, List.drop_left' hlen.symm⟩

end Sys2Proof.Machine

/-! The errors of every instruction: each kind from one operation, on one condition (R130, R137). -/

namespace Sys2Proof.Machine

section Errors

variable {s : State} {k : ErrorKind}

/-- An instruction that responds answers an error exactly where its response is that error. -/
theorem exec_eq_raise_iff_of_respond {i : Instr} {r : Response}
    (h : exec i s = .next (s.respond r)) : exec i s = .next (s.raise k) ↔ r = .error k := by
  rw [h]
  exact ⟨fun herror => respond_inj (Host.Outcome.next.inj herror), fun hr => hr ▸ rfl⟩

/-- R71, R72: the errors of `ENC`. -/
theorem exec_enc_eq_raise_iff {val : Val} :
    exec (.enc val) s = .next (s.raise k) ↔
      (k = .negative ∧ val.toInt < 0) ∨ (k = .tooLarge ∧ (maxValue : Int) < val.toInt) := by
  refine exec_eq_next_answer_iff.trans ?_
  obtain ⟨hneg, h⟩ | ⟨hlarge, h⟩ | ⟨v, hv, hle, h⟩ := answerOf_enc_cases val s.buf
  · have hle : val.toInt ≤ maxValue := by omega
    simp [h, hneg, hle, eq_comm]
  · have hnonneg : 0 ≤ val.toInt := by omega
    simp [h, hlarge, hnonneg, eq_comm]
  · simp [h, hv, hle]

/-- R91, R92: the errors of `DEC`. A sequence of the length that its first byte announces has none. -/
theorem exec_dec_eq_raise_iff {n : Nat} {b0 b1 b2 b3 : Byte} :
    exec (.dec n b0 b1 b2 b3) s = .next (s.raise k) ↔
      (k = .emptyInput ∧ n = 0) ∨ (k = .lengthMismatch ∧ 1 ≤ n ∧ n ≠ expectedLength b0) := by
  by_cases hempty : n = 0
  · subst hempty
    refine (exec_eq_raise_iff_of_respond (exec_dec_zero b0 b1 b2 b3 s)).trans ?_
    simp [eq_comm]
  by_cases hlen : n = expectedLength b0
  · subst hlen
    refine (exec_eq_raise_iff_of_respond (exec_dec_expectedLength b0 b1 b2 b3 s)).trans ?_
    simp [hempty]
  · refine (exec_eq_raise_iff_of_respond (exec_dec_of_length_ne b1 b2 b3 s hempty hlen)).trans ?_
    simp [hempty, hlen, Nat.one_le_iff_ne_zero, eq_comm]

/-- R101, R102: the error of `DECAT`, over a BUF of the buffer length (R30). -/
theorem exec_decat_eq_raise_iff {start bufLen : Nat} :
    exec (.decat start bufLen) s = .next (s.raise k) ↔
      k = .bufferTooShort ∧ BufReadable bufLen s ∧
        (bufLen ≤ start ∨
          ∃ first, s.bufByte start = some first ∧ bufLen < start + expectedLength first) := by
  constructor
  · intro h
    cases eq_bufferTooShort_of_exec_decat_eq_raise h
    have hr : BufReadable bufLen s := exists_answerOf_decat_eq_response_iff.mp
      ⟨_, exec_eq_next_answer_iff.mp h⟩
    refine ⟨rfl, hr, (Nat.lt_or_ge start bufLen).symm.imp_right fun hstart => ?_⟩
    obtain ⟨first, hfirst⟩ := hr start hstart
    exact ⟨first, hfirst, (exec_decat_eq_bufferTooShort_iff hr hstart hfirst).mp h⟩
  · rintro ⟨rfl, hr, hshort⟩
    by_cases hend : bufLen ≤ start
    · exact exec_decat_of_le_start hr hend
    · obtain ⟨first, hfirst, hoff⟩ := hshort.resolve_left hend
      exact exec_decat_of_runs_off hr (not_le.mp hend) hfirst hoff

end Errors

/-- Settles O31, operation by operation: `ENC`, `DEC` and `DECAT` by the condition of each, while
`LEN` (R137) and the packed-value formats respond with no error. -/
theorem errorsAreRaisedExactlyAsTabled : Obligations.ErrorsAreRaisedExactlyAsTabled := by
  intro i s k
  cases i with
  | enc val => exact exec_enc_eq_raise_iff.trans (by simp [maxValue])
  | dec n b0 b1 b2 b3 =>
    exact exec_dec_eq_raise_iff.trans (by simp [expectedLength, tagBits, and_comm])
  | decat start bufLen => exact exec_decat_eq_raise_iff.trans (by simp [expectedLength, tagBits])
  | len b0 => exact (exec_eq_raise_iff_of_respond (exec_len b0 s)).trans (by simp)
  | pv1 o | pv2 o | pv3 o | pv4 o => exact (exec_eq_raise_iff_of_respond rfl).trans (by simp)

end Sys2Proof.Machine

/-! Which step is enabled, and what the record of the host's duty decides (R151, R156, R158). -/

namespace Sys2Proof.Machine

/-- Settles O36: the arm of `step` for an empty request port, the model's choice (R160; log 3). -/
theorem stepWithNothingPendingChangesNothing : Obligations.StepWithNothingPendingChangesNothing := by
  rintro ⟨_, m, as⟩ rfl
  rfl

/-- Settles O39: with nothing pending the state stays, else the oldest transaction gets its answer over
BUF, which no instruction can fail to deliver. -/
theorem stepIsAlwaysEnabled : Obligations.StepIsAlwaysEnabled := by
  rintro ⟨pending, m, as⟩
  cases pending with
  | nil => exact ⟨_, stepWithNothingPendingChangesNothing _ rfl⟩
  | cons x rest => exact ⟨_, step_eq_answer x rest m as⟩

/-- Settles O46: the step obeys the record, which tells whether BUF was readable at the issue. -/
theorem dutyIsJudgedWhenTheRequestIsIssued : Obligations.DutyIsJudgedWhenTheRequestIsIssued := by
  intro s t x start bufLen rest hdecode hpending
  have hrecord : (s.issued x).dutyKept = true ↔ BufReadable bufLen s := issued_decat hdecode
  obtain ⟨hkept, hbroken⟩ :=
    stepRunsTheDecodedInstruction t (s.issued x) rest (.decat start bufLen) hpending hdecode
  exact ⟨fun hshort => hbroken (Bool.eq_false_iff.mpr (mt hrecord.mp hshort)),
    fun hreadable => hkept (hrecord.mpr hreadable)⟩

end Sys2Proof.Machine
